-- ==== Sys2Proof/Word.lean ====
section
/-! DEFINITION. The bit-vector types of the block: byte, halfword and word (spec/00_scope.md R5, R12). -/

namespace Sys2Proof

/-- A byte of memory. -/
abbrev Byte := BitVec 8

/-- A halfword: the unit an instruction is read in (R67). -/
abbrev Half := BitVec 16

/-- A word: a register, an address, a datum (R5). -/
abbrev Word := BitVec 32

end Sys2Proof
end

