-- ==== Sys2Proof/Syntax.lean ====
section
/-! DEFINITION. The decoded records of the instruction set (spec/30_encoding.md R95, R100), one constructor of
`Instr` per row of spec/opcode_table.json. -/

namespace Sys2Proof

/-- The `Cond` values that have a number (spec/40_execution_engine.md R154), in its order. The value "None" of an
unconditional instruction is `none : Option Cond`. -/
inductive Cond where
  | eq | ne | cs | cc | mi | pl | vs | vc | hi | ls | ge | lt | gt | le | al
  deriving DecidableEq, Repr

/-- The eight special-register identifiers, the whole defined set (spec/10_state.md R34). -/
inductive SpecialReg where
  | apsr | xpsr | ipsr | epsr | msp | psp | primask | control
  deriving DecidableEq, Repr

/-- The decoded record (R95). Register fields have the width of their encoding (R96); `imm32` is the extended and
scaled immediate (R97); `registers` is the 16-bit register-list mask (R98). The sixteen operations of the record `DP`
are sixteen constructors. The width of a record is `Instr.width`. -/
inductive Instr where
  /-- `ADDS Rd,Rn,Rm` (R102, R182). -/
  | addReg (rm rn rd : BitVec 3)
  /-- `ADDS Rd,Rn,#imm3` (R102, R180). -/
  | addImm3 (imm32 : Word) (rn rd : BitVec 3)
  /-- `MOVS Rd,#imm8` (R104, R170). -/
  | movImm (rd : BitVec 3) (imm32 : Word)
  /-- `CMP Rn,#imm8` (R105, R171). -/
  | cmpImm (rn : BitVec 3) (imm32 : Word)
  /-- `ADDS Rdn,#imm8` (R106, R181). -/
  | addImm8 (rdn : BitVec 3) (imm32 : Word)
  /-- `DP`, `op` 0: `ANDS Rdn,Rm` (R107, R191). -/
  | ands (rm rdn : BitVec 3)
  /-- `DP`, `op` 1: `EORS Rdn,Rm` (R107, R192). -/
  | eors (rm rdn : BitVec 3)
  /-- `DP`, `op` 2: `LSLS Rdn,Rm` (R107, R193). -/
  | lsls (rm rdn : BitVec 3)
  /-- `DP`, `op` 3: `LSRS Rdn,Rm` (R107, R194). -/
  | lsrs (rm rdn : BitVec 3)
  /-- `DP`, `op` 4: `ASRS Rdn,Rm` (R107, R196). -/
  | asrs (rm rdn : BitVec 3)
  /-- `DP`, `op` 5: `ADCS Rdn,Rm` (R107, R197). -/
  | adcs (rm rdn : BitVec 3)
  /-- `DP`, `op` 6: `SBCS Rdn,Rm` (R107, R198). -/
  | sbcs (rm rdn : BitVec 3)
  /-- `DP`, `op` 7: `RORS Rdn,Rm` (R107, R199). -/
  | rors (rm rdn : BitVec 3)
  /-- `DP`, `op` 8: `TST Rn,Rm` (R107, R201). -/
  | tst (rm rdn : BitVec 3)
  /-- `DP`, `op` 9: `RSBS Rd,Rn,#0`; `rm` carries `Rn` (R107, R202). -/
  | rsbs (rm rdn : BitVec 3)
  /-- `DP`, `op` 10: `CMP Rn,Rm`; `rdn` carries `Rn` (R107, R200). -/
  | cmpReg (rm rdn : BitVec 3)
  /-- `DP`, `op` 11: `CMN Rn,Rm` (R107, R203). -/
  | cmn (rm rdn : BitVec 3)
  /-- `DP`, `op` 12: `ORRS Rdn,Rm` (R107, R204). -/
  | orrs (rm rdn : BitVec 3)
  /-- `DP`, `op` 13: `MULS Rdm,Rn,Rdm`; `rm` carries `Rn` (R107, R206). -/
  | muls (rm rdn : BitVec 3)
  /-- `DP`, `op` 14: `BICS Rdn,Rm` (R107, R207). -/
  | bics (rm rdn : BitVec 3)
  /-- `DP`, `op` 15: `MVNS Rd,Rm` (R107, R205). -/
  | mvns (rm rdn : BitVec 3)
  /-- `MOV Rd,Rm` on any registers (R108, R172). -/
  | movReg (rd rm : BitVec 4)
  /-- `BX Rm` (R108, R222). -/
  | bx (rm : BitVec 4)
  /-- `LDR Rt,[PC,#imm]` (R109, R240). -/
  | ldrLit (rt : BitVec 3) (imm32 : Word)
  /-- `STR Rt,[SP,#imm]` (R110, R241). -/
  | strSp (rt : BitVec 3) (imm32 : Word)
  /-- `ADD SP,SP,#imm` (R111, R183). -/
  | addSp (imm32 : Word)
  /-- `SUB SP,SP,#imm` (R111, R184). -/
  | subSp (imm32 : Word)
  /-- `PUSH {registers}` (R111, R242). -/
  | push (registers : BitVec 16)
  /-- `BKPT #imm8` (R111, R262). -/
  | bkpt (imm8 : BitVec 8)
  /-- `STM Rn!,{registers}` (R112, R243). -/
  | stm (rn : BitVec 3) (registers : BitVec 16)
  /-- `LDM Rn,{registers}` (R112, R244). -/
  | ldm (rn : BitVec 3) (registers : BitVec 16)
  /-- `B<cond> label` (R113, R224). -/
  | bCond (cond : Cond) (imm32 : Word)
  /-- `B label` (R114, R226). -/
  | b (imm32 : Word)
  /-- `BL label` (R115, R220). -/
  | bl (imm32 : Word)
  /-- `MSR spec_reg,Rn` (R116, R261). -/
  | msr (rn : BitVec 4) (sysm : SpecialReg)
  /-- `MRS Rd,spec_reg` (R117, R260). -/
  | mrs (rd : BitVec 4) (sysm : SpecialReg)
  deriving DecidableEq, Repr

end Sys2Proof
end

