-- ==== Sys2Proof/WellFormed.lean ====
section
/-! DEFINITION. Which records the decoder can produce: the ranges of `imm32` (spec/30_encoding.md R97), the register
lists (R98) and the conditions of B cond (R99). -/

namespace Sys2Proof

/-- `v` is the zero extension of an `n`-bit value (R97). -/
def fitsUnsigned (n : Nat) (v : Word) : Bool := (v.setWidth n).setWidth 32 == v

/-- `v` is the sign extension of an `n`-bit value (R97). -/
def fitsSigned (n : Nat) (v : Word) : Bool := (v.setWidth n).signExtend 32 == v

/-- `v` is a multiple of 2 (branch offsets, R97). -/
def isEven (v : Word) : Bool := v.setWidth 1 == 0#1

/-- `v` is a multiple of 4 (literal and stack offsets, R97). -/
def isWordMultiple (v : Word) : Bool := v.setWidth 2 == 0#2

/-- The list names no register outside `allowed` (R98). -/
def listWithin (allowed registers : BitVec 16) : Bool := registers &&& ~~~allowed == 0#16

/-- The registers STM and LDM can list: R0 to R7 (R98). -/
def lowList : BitVec 16 := 0x00FF#16

/-- The registers PUSH can list: R0 to R7 and LR (R98). -/
def pushList : BitVec 16 := 0x40FF#16

/-- The records the encodings of R100 can carry. -/
def Instr.wf : Instr → Bool
  | .addImm3 imm32 _ _ => fitsUnsigned 3 imm32
  | .movImm _ imm32 => fitsUnsigned 8 imm32
  | .cmpImm _ imm32 => fitsUnsigned 8 imm32
  | .addImm8 _ imm32 => fitsUnsigned 8 imm32
  | .ldrLit _ imm32 => fitsUnsigned 10 imm32 && isWordMultiple imm32
  | .strSp _ imm32 => fitsUnsigned 10 imm32 && isWordMultiple imm32
  | .addSp imm32 => fitsUnsigned 9 imm32 && isWordMultiple imm32
  | .subSp imm32 => fitsUnsigned 9 imm32 && isWordMultiple imm32
  | .push registers => listWithin pushList registers
  | .stm _ registers => listWithin lowList registers
  | .ldm _ registers => listWithin lowList registers
  | .bCond cond imm32 => cond != .al && fitsSigned 9 imm32 && isEven imm32
  | .b imm32 => fitsSigned 12 imm32 && isEven imm32
  | .bl imm32 => fitsSigned 25 imm32 && isEven imm32
  | .addReg _ _ _ => true
  | .ands _ _ => true
  | .eors _ _ => true
  | .lsls _ _ => true
  | .lsrs _ _ => true
  | .asrs _ _ => true
  | .adcs _ _ => true
  | .sbcs _ _ => true
  | .rors _ _ => true
  | .tst _ _ => true
  | .rsbs _ _ => true
  | .cmpReg _ _ => true
  | .cmn _ _ => true
  | .orrs _ _ => true
  | .muls _ _ => true
  | .bics _ _ => true
  | .mvns _ _ => true
  | .movReg _ _ => true
  | .bx _ => true
  | .bkpt _ => true
  | .msr _ _ => true
  | .mrs _ _ => true

end Sys2Proof
end

