-- ==== Sys2Proof/Decode.lean ====
section
/-! DEFINITION. The decoder port (spec/30_encoding.md R90 to R122, spec/00_scope.md R11) and the encoder that inverts
it (R122). The bit patterns are the spec's (its G1: supplied from general knowledge; log entry 3). -/

namespace Sys2Proof

/-- The two failures of the decoder port (R91, R94). -/
inductive DecodeError where
  /-- Fewer bytes than the instruction needs (spec/60_exceptions.md R281). -/
  | truncatedInput
  /-- A pattern that matches no admitted instruction (R118). -/
  | illegalEncoding
  deriving DecidableEq, Repr

/-! ### Condition codes and special-register numbers -/

/-- The number of a condition (spec/40_execution_engine.md R154). -/
def Cond.code : Cond → BitVec 4
  | .eq => 0#4 | .ne => 1#4 | .cs => 2#4 | .cc => 3#4 | .mi => 4#4 | .pl => 5#4 | .vs => 6#4 | .vc => 7#4
  | .hi => 8#4 | .ls => 9#4 | .ge => 10#4 | .lt => 11#4 | .gt => 12#4 | .le => 13#4 | .al => 14#4

/-- The condition of a B cond: 0 to 13; 14 and 15 are no conditions there (R99). -/
def Cond.ofBranchField (c : BitVec 4) : Option Cond :=
  match c.toNat with
  | 0 => some .eq | 1 => some .ne | 2 => some .cs | 3 => some .cc | 4 => some .mi | 5 => some .pl
  | 6 => some .vs | 7 => some .vc | 8 => some .hi | 9 => some .ls | 10 => some .ge | 11 => some .lt
  | 12 => some .gt | 13 => some .le | _ => none

/-- The SYSm number of an identifier (spec/10_state.md R35). -/
def SpecialReg.sysm : SpecialReg → BitVec 8
  | .apsr => 0#8 | .xpsr => 3#8 | .ipsr => 5#8 | .epsr => 6#8
  | .msp => 8#8 | .psp => 9#8 | .primask => 16#8 | .control => 20#8

/-- The identifier of a SYSm number; a number outside the defined set is refused (spec/10_state.md R35, R42). -/
def SpecialReg.ofSysm (n : BitVec 8) : Option SpecialReg :=
  match n.toNat with
  | 0 => some .apsr | 3 => some .xpsr | 5 => some .ipsr | 6 => some .epsr
  | 8 => some .msp | 9 => some .psp | 16 => some .primask | 20 => some .control
  | _ => none

/-! ### Immediates and register lists (R97, R98) -/

/-- `zext_3(imm3)`. -/
def immFromImm3 (imm3 : BitVec 3) : Word := imm3.setWidth 32

/-- `zext_8(imm8)`. -/
def immFromImm8 (imm8 : BitVec 8) : Word := imm8.setWidth 32

/-- `zext_10(imm8:0b00)`. -/
def immFromImm8Words (imm8 : BitVec 8) : Word := (imm8 ++ 0#2).setWidth 32

/-- `zext_9(imm7:0b00)`. -/
def immFromImm7Words (imm7 : BitVec 7) : Word := (imm7 ++ 0#2).setWidth 32

/-- `sext_9(imm8:0b0)`. -/
def immFromBranch8 (imm8 : BitVec 8) : Word := (imm8 ++ 0#1).signExtend 32

/-- `sext_12(imm11:0b0)`. -/
def immFromBranch11 (imm11 : BitVec 11) : Word := (imm11 ++ 0#1).signExtend 32

/-- `sext_25(S:I1:I2:imm10:imm11:0b0)` with `I1 = NOT(J1 XOR S)` and `I2 = NOT(J2 XOR S)`. -/
def immFromBl (s j1 j2 : BitVec 1) (imm10 : BitVec 10) (imm11 : BitVec 11) : Word :=
  (s ++ ~~~(j1 ^^^ s) ++ ~~~(j2 ^^^ s) ++ imm10 ++ imm11 ++ 0#1).signExtend 32

/-- `0b00000000 : register_list` (STM, LDM). -/
def lowRegisters (list : BitVec 8) : BitVec 16 := list.setWidth 16

/-- `0b0 : M : 0b000000 : register_list` (PUSH). -/
def pushRegisters (m : BitVec 1) (list : BitVec 8) : BitVec 16 := m.setWidth 16 <<< 14 ||| list.setWidth 16

/-- `Rd = D:Rd3` (MOV register). -/
def highRegister (d : BitVec 1) (rd3 : BitVec 3) : BitVec 4 := d.setWidth 4 <<< 3 ||| rd3.setWidth 4

/-! ### The decoder -/

/-- The first halfword announces a long form (R92). -/
def isLongForm (hw1 : Half) : Bool :=
  hw1.extractLsb' 11 5 == 0b11101#5 || hw1.extractLsb' 11 5 == 0b11110#5 || hw1.extractLsb' 11 5 == 0b11111#5

/-- The sixteen data-processing operations, by `hw1[9:6]` (R107). -/
def decodeDp (op : BitVec 4) (rm rdn : BitVec 3) : Instr :=
  match op.toNat with
  | 0 => .ands rm rdn | 1 => .eors rm rdn | 2 => .lsls rm rdn | 3 => .lsrs rm rdn
  | 4 => .asrs rm rdn | 5 => .adcs rm rdn | 6 => .sbcs rm rdn | 7 => .rors rm rdn
  | 8 => .tst rm rdn | 9 => .rsbs rm rdn | 10 => .cmpReg rm rdn | 11 => .cmn rm rdn
  | 12 => .orrs rm rdn | 13 => .muls rm rdn | 14 => .bics rm rdn | _ => .mvns rm rdn

/-- The short forms: the verdict of R101 by `hw1[15:11]`, then narrower fields (R93, R102 to R114). -/
def decodeShort (hw1 : Half) : Option Instr :=
  match (hw1.extractLsb' 11 5).toNat with
  | 0b00011 =>
    match (hw1.extractLsb' 9 2).toNat with
    | 0b00 => some (.addReg (hw1.extractLsb' 6 3) (hw1.extractLsb' 3 3) (hw1.extractLsb' 0 3))
    | 0b10 => some (.addImm3 (immFromImm3 (hw1.extractLsb' 6 3)) (hw1.extractLsb' 3 3) (hw1.extractLsb' 0 3))
    | _ => none
  | 0b00100 => some (.movImm (hw1.extractLsb' 8 3) (immFromImm8 (hw1.extractLsb' 0 8)))
  | 0b00101 => some (.cmpImm (hw1.extractLsb' 8 3) (immFromImm8 (hw1.extractLsb' 0 8)))
  | 0b00110 => some (.addImm8 (hw1.extractLsb' 8 3) (immFromImm8 (hw1.extractLsb' 0 8)))
  | 0b01000 =>
    match (hw1.extractLsb' 10 1).toNat with
    | 0 => some (decodeDp (hw1.extractLsb' 6 4) (hw1.extractLsb' 3 3) (hw1.extractLsb' 0 3))
    | _ =>
      match (hw1.extractLsb' 8 2).toNat with
      | 0b10 => some (.movReg (highRegister (hw1.extractLsb' 7 1) (hw1.extractLsb' 0 3)) (hw1.extractLsb' 3 4))
      | 0b11 =>
        match (hw1.extractLsb' 7 1).toNat, (hw1.extractLsb' 0 3).toNat with
        | 0, 0 => some (.bx (hw1.extractLsb' 3 4))
        | _, _ => none
      | _ => none
  | 0b01001 => some (.ldrLit (hw1.extractLsb' 8 3) (immFromImm8Words (hw1.extractLsb' 0 8)))
  | 0b10010 => some (.strSp (hw1.extractLsb' 8 3) (immFromImm8Words (hw1.extractLsb' 0 8)))
  | 0b10110 =>
    match (hw1.extractLsb' 9 2).toNat with
    | 0b00 =>
      match (hw1.extractLsb' 7 2).toNat with
      | 0b00 => some (.addSp (immFromImm7Words (hw1.extractLsb' 0 7)))
      | 0b01 => some (.subSp (immFromImm7Words (hw1.extractLsb' 0 7)))
      | _ => none
    | 0b10 => some (.push (pushRegisters (hw1.extractLsb' 8 1) (hw1.extractLsb' 0 8)))
    | _ => none
  | 0b10111 =>
    match (hw1.extractLsb' 8 3).toNat with
    | 0b110 => some (.bkpt (hw1.extractLsb' 0 8))
    | _ => none
  | 0b11000 => some (.stm (hw1.extractLsb' 8 3) (lowRegisters (hw1.extractLsb' 0 8)))
  | 0b11001 => some (.ldm (hw1.extractLsb' 8 3) (lowRegisters (hw1.extractLsb' 0 8)))
  | 0b11010 =>
    (Cond.ofBranchField (hw1.extractLsb' 8 4)).map fun c => .bCond c (immFromBranch8 (hw1.extractLsb' 0 8))
  | 0b11011 =>
    (Cond.ofBranchField (hw1.extractLsb' 8 4)).map fun c => .bCond c (immFromBranch8 (hw1.extractLsb' 0 8))
  | 0b11100 => some (.b (immFromBranch11 (hw1.extractLsb' 0 11)))
  | _ => none

/-- The pattern of BL (R115). -/
def isBl (hw1 hw2 : Half) : Bool :=
  hw1.extractLsb' 11 5 == 0b11110#5 && hw2.extractLsb' 14 2 == 0b11#2 && hw2.extractLsb' 12 1 == 0b1#1

/-- The pattern of MSR, SYSm apart (R116). -/
def isMsr (hw1 hw2 : Half) : Bool :=
  hw1.extractLsb' 4 12 == 0b111100111000#12 && hw2.extractLsb' 8 8 == 0b10001000#8

/-- The pattern of MRS, SYSm apart (R117). -/
def isMrs (hw1 hw2 : Half) : Bool :=
  hw1 == 0b1111001111101111#16 && hw2.extractLsb' 12 4 == 0b1000#4

/-- The long forms (R115 to R118). -/
def decodeLong (hw1 hw2 : Half) : Option Instr :=
  if isBl hw1 hw2 then
    some (.bl (immFromBl (hw1.extractLsb' 10 1) (hw2.extractLsb' 13 1) (hw2.extractLsb' 11 1)
      (hw1.extractLsb' 0 10) (hw2.extractLsb' 0 11)))
  else if isMsr hw1 hw2 then
    (SpecialReg.ofSysm (hw2.extractLsb' 0 8)).map (.msr (hw1.extractLsb' 0 4))
  else if isMrs hw1 hw2 then
    (SpecialReg.ofSysm (hw2.extractLsb' 0 8)).map (.mrs (hw2.extractLsb' 8 4))
  else none

/-- The record of two halfwords, or nothing for an illegal pattern; a short form ignores `hw2`
(R91, spec/20_memory.md R70). -/
def decodeHalves (hw1 hw2 : Half) : Option Instr :=
  if isLongForm hw1 then decodeLong hw1 hw2 else decodeShort hw1

/-- A halfword from its bytes in address order (spec/20_memory.md R67). -/
def halfOfBytes (low high : Byte) : Half := high.setWidth 16 <<< 8 ||| low.setWidth 16

/-- A decoded record with the unconsumed bytes, or `IllegalEncoding` where there is no record. -/
def decoded (record : Option Instr) (rest : List Byte) : Except DecodeError (Instr × List Byte) :=
  match record with
  | some i => .ok (i, rest)
  | none => .error .illegalEncoding

/-- The decoder port: total on any bytes; the checks are length, then width, then pattern (R91, R94). -/
def decode (bytes : List Byte) : Except DecodeError (Instr × List Byte) :=
  match bytes with
  | b0 :: b1 :: rest =>
    if isLongForm (halfOfBytes b0 b1) then
      match rest with
      | b2 :: b3 :: rest' => decoded (decodeLong (halfOfBytes b0 b1) (halfOfBytes b2 b3)) rest'
      | _ => .error .truncatedInput
    else decoded (decodeShort (halfOfBytes b0 b1)) rest
  | _ => .error .truncatedInput

/-! ### The encoder -/

/-- A field of an encoding whose lowest bit stands at bit `lo` of the halfword (R96). -/
def place {n : Nat} (lo : Nat) (field : BitVec n) : Half := field.setWidth 16 <<< lo

/-- A data-processing halfword, format F-DP (R96, R107). -/
def encodeDp (op : BitVec 4) (rm rdn : BitVec 3) : List Half := [0x4000#16 ||| place 6 op ||| place 3 rm ||| place 0 rdn]

/-- The two halfwords of BL from its offset (R96, R97): `J = NOT(I) XOR S`. -/
def encodeBl (imm32 : Word) : List Half :=
  let s := imm32.extractLsb' 24 1
  let j1 := ~~~(imm32.extractLsb' 23 1) ^^^ s
  let j2 := ~~~(imm32.extractLsb' 22 1) ^^^ s
  [0xF000#16 ||| place 10 s ||| place 0 (imm32.extractLsb' 12 10),
    0xD000#16 ||| place 13 j1 ||| place 11 j2 ||| place 0 (imm32.extractLsb' 1 11)]

/-- The halfwords of a record, first halfword first: every field put back at its position of R96 over the match value,
with the scaling of R97 undone (R122). -/
def encodeHalves : Instr → List Half
  | .addReg rm rn rd => [0x1800#16 ||| place 6 rm ||| place 3 rn ||| place 0 rd]
  | .addImm3 imm32 rn rd => [0x1C00#16 ||| place 6 (imm32.setWidth 3) ||| place 3 rn ||| place 0 rd]
  | .movImm rd imm32 => [0x2000#16 ||| place 8 rd ||| place 0 (imm32.setWidth 8)]
  | .cmpImm rn imm32 => [0x2800#16 ||| place 8 rn ||| place 0 (imm32.setWidth 8)]
  | .addImm8 rdn imm32 => [0x3000#16 ||| place 8 rdn ||| place 0 (imm32.setWidth 8)]
  | .ands rm rdn => encodeDp 0#4 rm rdn
  | .eors rm rdn => encodeDp 1#4 rm rdn
  | .lsls rm rdn => encodeDp 2#4 rm rdn
  | .lsrs rm rdn => encodeDp 3#4 rm rdn
  | .asrs rm rdn => encodeDp 4#4 rm rdn
  | .adcs rm rdn => encodeDp 5#4 rm rdn
  | .sbcs rm rdn => encodeDp 6#4 rm rdn
  | .rors rm rdn => encodeDp 7#4 rm rdn
  | .tst rm rdn => encodeDp 8#4 rm rdn
  | .rsbs rm rdn => encodeDp 9#4 rm rdn
  | .cmpReg rm rdn => encodeDp 10#4 rm rdn
  | .cmn rm rdn => encodeDp 11#4 rm rdn
  | .orrs rm rdn => encodeDp 12#4 rm rdn
  | .muls rm rdn => encodeDp 13#4 rm rdn
  | .bics rm rdn => encodeDp 14#4 rm rdn
  | .mvns rm rdn => encodeDp 15#4 rm rdn
  | .movReg rd rm => [0x4600#16 ||| place 7 (rd.extractLsb' 3 1) ||| place 3 rm ||| place 0 (rd.extractLsb' 0 3)]
  | .bx rm => [0x4700#16 ||| place 3 rm]
  | .ldrLit rt imm32 => [0x4800#16 ||| place 8 rt ||| place 0 (imm32.extractLsb' 2 8)]
  | .strSp rt imm32 => [0x9000#16 ||| place 8 rt ||| place 0 (imm32.extractLsb' 2 8)]
  | .addSp imm32 => [0xB000#16 ||| place 0 (imm32.extractLsb' 2 7)]
  | .subSp imm32 => [0xB080#16 ||| place 0 (imm32.extractLsb' 2 7)]
  | .push registers => [0xB400#16 ||| place 8 (registers.extractLsb' 14 1) ||| place 0 (registers.setWidth 8)]
  | .bkpt imm8 => [0xBE00#16 ||| place 0 imm8]
  | .stm rn registers => [0xC000#16 ||| place 8 rn ||| place 0 (registers.setWidth 8)]
  | .ldm rn registers => [0xC800#16 ||| place 8 rn ||| place 0 (registers.setWidth 8)]
  | .bCond cond imm32 => [0xD000#16 ||| place 8 cond.code ||| place 0 (imm32.extractLsb' 1 8)]
  | .b imm32 => [0xE000#16 ||| place 0 (imm32.extractLsb' 1 11)]
  | .bl imm32 => encodeBl imm32
  | .msr rn sysm => [0xF380#16 ||| place 0 rn, 0x8800#16 ||| place 0 sysm.sysm]
  | .mrs rd sysm => [0xF3EF#16, 0x8000#16 ||| place 8 rd ||| place 0 sysm.sysm]

/-- A halfword's bytes in address order (spec/20_memory.md R67). -/
def bytesOfHalf (h : Half) : List Byte := [h.extractLsb' 0 8, h.extractLsb' 8 8]

/-- The bytes of a record, in address order. -/
def encode (i : Instr) : List Byte := (encodeHalves i).flatMap bytesOfHalf

/-- `width` of a record: 2 or 4 bytes (R95). -/
def Instr.width : Instr → Nat
  | .addReg _ _ _ | .addImm3 _ _ _ | .movImm _ _ | .cmpImm _ _ | .addImm8 _ _ => 2
  | .ands _ _ | .eors _ _ | .lsls _ _ | .lsrs _ _ | .asrs _ _ | .adcs _ _ | .sbcs _ _ | .rors _ _ => 2
  | .tst _ _ | .rsbs _ _ | .cmpReg _ _ | .cmn _ _ | .orrs _ _ | .muls _ _ | .bics _ _ | .mvns _ _ => 2
  | .movReg _ _ | .bx _ | .ldrLit _ _ | .strSp _ _ | .addSp _ | .subSp _ | .push _ | .bkpt _ => 2
  | .stm _ _ | .ldm _ _ | .bCond _ _ | .b _ => 2
  | .bl _ | .msr _ _ | .mrs _ _ => 4

/-! ### Words as the opcode table numbers them -/

/-- The two halfwords of an instruction given as one number of the opcode table. A row of 16 bits is `hw1`, with
`hw2` zero. In a row of 32 bits the table (spec/INDEX.md) puts the first halfword in bits 31 to 16; a word whose
upper half announces no long form has its first halfword in bits 15 to 0 (log entry 8). -/
def tableHalves (nbits w : Nat) : Half × Half :=
  let low : Half := BitVec.ofNat 16 w
  let high : Half := BitVec.ofNat 16 (w / 65536)
  if nbits ≤ 16 then (low, 0#16)
  else if isLongForm high then (high, low)
  else (low, high)

/-- The bytes of a word of the opcode table as memory holds them, first halfword lowest. -/
def tableBytes (nbits w : Nat) : List Byte :=
  bytesOfHalf (tableHalves nbits w).1 ++ bytesOfHalf (tableHalves nbits w).2

/-- The record the decoder reads from a word of the opcode table. -/
def decodeTableWord (nbits w : Nat) : Option Instr :=
  match decode (tableBytes nbits w) with
  | .ok (i, _) => some i
  | .error _ => none

end Sys2Proof
end

