-- ==== Sys2Proof/Config.lean ====
section
/-! DEFINITION. The fixed parameters of the block (spec/00_scope.md R5). The open parameters and the boot port are
arguments of the reset sequence (Machine/Boot.lean); no instruction leaves a value free, so there is no free value. -/

namespace Sys2Proof.Config

/-- `MEM_SIZE`: memory spans the whole 32-bit address space (R5, R60). -/
def memSize : Nat := 4294967296

/-- Slots of the general register array (R5, R21). -/
abbrev registerCount : Nat := 16

/-- Slots of the special-register array (R5, R36). -/
abbrev specialCount : Nat := 12

/-- Bytes a fetch and a data access take (R64, R65, R70). -/
def accessBytes : Nat := 4

end Sys2Proof.Config
end

