-- ==== Sys2Proof/Machine/State.lean ====
section
/-! DEFINITION. The state of the block (spec/10_state.md R20, R45), its value after reset (R50), and the reasons a step
can stop. -/

namespace Sys2Proof.Machine

/-- Memory: the bytes that differ from what an unlisted address reads as, by rising address (R44, R60). -/
abbrev Memory := List Host.Cell

/-- The causes of a halt; code 0, `NONE`, is `RunState.running` (spec/60_exceptions.md R280). -/
inductive HaltCause where
  /-- Code 1: a breakpoint, the only good end of a run (R286). -/
  | programEnd
  /-- Code 2: the pattern at the PC is no instruction (R282). -/
  | illegalEncoding
  /-- Code 3: the record has no handler (R283). -/
  | notImplemented
  /-- Code 4: STM with its base in its list (R284). -/
  | deprecatedOperand
  /-- Code 5: an access past 0xFFFFFFFF, with the offending address (R285). -/
  | boundsViolation (addr : Word)
  deriving DecidableEq, Repr

/-- The run state; only a halted block has a cause (R45). -/
inductive RunState where
  | running
  | halted (cause : HaltCause)
  deriving DecidableEq, Repr

/-- The four flags (R31). -/
structure Flags where
  n : Bool
  z : Bool
  c : Bool
  v : Bool
  deriving DecidableEq, Repr

/-- The whole mutable state of the block (R20, R45). -/
structure State where
  /-- The stored register array; slot 13 is SP = MSP, 14 is LR, 15 is the stored PC (R21, R27). -/
  regs : Vector Word Config.registerCount
  /-- N, Z, C, V (R31). -/
  flags : Flags
  /-- The special-register array: 0 `PSR_BACKING`, 1 `PSP`, 2 `PRIMASK`, 3 `CONTROL`, 4 to 11 reserved (R36). -/
  special : Vector Word Config.specialCount
  /-- Memory (R44). -/
  mem : Memory
  /-- `branch_taken` (R46; log entry 7). -/
  branchTaken : Bool
  /-- RUNNING, or HALTED with its cause (R45). -/
  run : RunState
  deriving DecidableEq, Repr

/-- The block after a reset whose boot port carries no code, entry 0 and stack pointer 0, and whose open parameters
are all 0 (R50; log entries 1, 2, 4 and 5). `boot_default` says it is the reset sequence's result. -/
def State.reset : State where
  regs := Vector.replicate 16 0#32
  flags := { n := false, z := false, c := false, v := false }
  special := Vector.replicate 12 0#32
  mem := []
  branchTaken := false
  run := .running

/-- Why `step` stops with a fault. -/
inductive Fault where
  /-- Raised by `step`, never by an instruction: the block is already HALTED with one of the four fatal causes, and a
  halted block makes no tick (R140 step 0, R292). Safe: the halted state itself is the step before (log entry 6). -/
  | halted (cause : HaltCause)
  deriving DecidableEq, Repr

/-- Why `step` answers no meaning. -/
inductive Refusal where
  /-- Raised by nobody: every instruction has its meaning. Safe. -/
  | notModelled (mnemonic : String)
  deriving DecidableEq, Repr

end Sys2Proof.Machine
end

