-- ==== Sys2Proof/Machine/Ops.lean ====
section
/-! DEFINITION. The named operations over memory, registers and the run state (spec/10_state.md R23, R24, R27;
spec/20_memory.md R60 to R65; spec/40_execution_engine.md R140, R144; spec/60_exceptions.md R290). -/

namespace Sys2Proof.Machine

/-! ### Memory -/

/-- What an address reads as that the list does not hold: `MEM_INIT` of such an address (log entry 5). -/
def Memory.unlisted : Byte := 0#8

/-- The byte at an address. -/
def Memory.get : Memory → Nat → Byte
  | [], _ => Memory.unlisted
  | c :: m, a => if c.1 = a then c.2 else Memory.get m a

/-- Drops what the list holds for an address. -/
def Memory.erase : Memory → Nat → Memory
  | [], _ => []
  | c :: m, a => if c.1 = a then Memory.erase m a else c :: Memory.erase m a

/-- Puts a byte before the first entry of a higher address. -/
def Memory.insert : Memory → Nat → Byte → Memory
  | [], a, v => [(a, v)]
  | c :: m, a, v => if a < c.1 then (a, v) :: c :: m else c :: Memory.insert m a v

/-- `M[a] <- v`, keeping the canonical form. -/
def Memory.set (m : Memory) (a : Nat) (v : Byte) : Memory :=
  if v = Memory.unlisted then m.erase a else (m.erase a).insert a v

/-- The canonical form: addresses strictly rising and inside the address space, no entry equal to what an unlisted
address reads as. -/
abbrev Memory.wf (m : Memory) : Prop :=
  List.Pairwise (fun c d : Host.Cell => c.1 < d.1) m ∧
    ∀ c ∈ m, c.1 < Config.memSize ∧ c.2 ≠ Memory.unlisted

/-- The four bytes of an access at `addr` lie inside memory; the byte addresses do not wrap (R63). -/
def inRange (addr : Word) : Bool := decide (addr.toNat + Config.accessBytes ≤ Config.memSize)

/-- The byte at an address. -/
def State.readByte (s : State) (a : Nat) : Byte := s.mem.get a

/-- One byte stored. -/
def State.writeByte (s : State) (a : Nat) (v : Byte) : State := { s with mem := s.mem.set a v }

/-- The halfword at an address, little-endian (R67). -/
def State.readHalf (s : State) (a : Nat) : Half := halfOfBytes (s.readByte a) (s.readByte (a + 1))

/-- `b3:b2:b1:b0`: the byte at the lowest address is the least significant (R64). -/
def wordOfBytes (b0 b1 b2 b3 : Byte) : Word :=
  b3.setWidth 32 <<< 24 ||| b2.setWidth 32 <<< 16 ||| b1.setWidth 32 <<< 8 ||| b0.setWidth 32

/-- The word at an address, little-endian (R64). -/
def State.readWord (s : State) (addr : Word) : Word :=
  wordOfBytes (s.readByte addr.toNat) (s.readByte (addr.toNat + 1)) (s.readByte (addr.toNat + 2))
    (s.readByte (addr.toNat + 3))

/-- A word stored little-endian (R65). -/
def State.writeWord (s : State) (addr v : Word) : State :=
  (((s.writeByte addr.toNat (v.extractLsb' 0 8)).writeByte (addr.toNat + 1) (v.extractLsb' 8 8)).writeByte
    (addr.toNat + 2) (v.extractLsb' 16 8)).writeByte (addr.toNat + 3) (v.extractLsb' 24 8)

/-- Bytes stored at rising addresses: the boot copy (R75). -/
def Memory.setBytes : Memory → Nat → List Byte → Memory
  | m, _, [] => m
  | m, a, b :: bs => Memory.setBytes (m.set a b) (a + 1) bs

/-! ### Registers -/

/-- `R[i]`: the stored value of a register. -/
def State.stored (s : State) (i : BitVec 4) : Word := s.regs[i.toNat]'i.isLt

/-- Stores a register slot as it is. -/
def State.store (s : State) (i : BitVec 4) (v : Word) : State := { s with regs := s.regs.set i.toNat v i.isLt }

/-- The index of SP = MSP (R21). -/
def spIndex : BitVec 4 := 13#4

/-- The index of LR (R21). -/
def lrIndex : BitVec 4 := 14#4

/-- The index of the PC (R21). -/
def pcIndex : BitVec 4 := 15#4

/-- A 3-bit register field names R0 to R7 (R22). -/
def low (i : BitVec 3) : BitVec 4 := i.setWidth 4

/-- `pc`: the stored PC, the address of the instruction of this tick (R27). -/
def State.pc (s : State) : Word := s.stored pcIndex

/-- `v[31:1]:0`. -/
def clearBit0 (v : Word) : Word := v &&& 0xFFFFFFFE#32

/-- `v[31:1]:1`. -/
def setBit0 (v : Word) : Word := v ||| 0x00000001#32

/-- `x[i]` (R23). -/
def State.readReg (s : State) (i : BitVec 4) : Word := if i = pcIndex then s.stored i + 4#32 else s.stored i

/-- `x[i] <- v` (R24). -/
def State.writeReg (s : State) (i : BitVec 4) (v : Word) : State :=
  if i = pcIndex then { s.store i (clearBit0 v) with branchTaken := true } else s.store i v

/-- A special-register slot (R36). -/
def State.slot (s : State) (k : Fin Config.specialCount) : Word := s.special[k]

/-! ### The frame of a tick -/

/-- `raise Cause`: the halt entry sequence. Nothing of the instruction is written, the PC stays at it, and
`branch_taken` is as step 1 of the tick left it (R290, R291). -/
def raise (cause : HaltCause) (s : State) : Host.Outcome State Fault Refusal :=
  .next { s with branchTaken := false, run := .halted cause }

/-- Step 5 of the tick: the automatic advance, a direct store (R144). -/
def State.advance (s : State) (width : Word) : State :=
  if s.branchTaken then s else s.store pcIndex (s.pc + width)

/-- Steps 1, 4 and 5 of the tick for an instruction of `width` bytes: `branch_taken` is cleared, the handler runs, the
PC advances unless the handler wrote it (R140, R144). -/
def execute (width : Word) (handler : State → State) (s : State) : Host.Outcome State Fault Refusal :=
  .next ((handler { s with branchTaken := false }).advance width)

/-- A data access at `addr` as `MemRead` and `MemWrite` make it: out of range it raises `BoundsViolation(addr)` before
anything is read or written (R63, R64, R65, R245). -/
def access (addr : Word) (act : Host.Outcome State Fault Refusal) (s : State) : Host.Outcome State Fault Refusal :=
  if inRange addr then act else raise (.boundsViolation addr) s

/-- Bytes of a short form (R90). -/
def shortForm : Word := 2#32

/-- Bytes of a long form (R90). -/
def longForm : Word := 4#32

/-- A block that is already HALTED makes no tick (R140 step 0, R292): after `PROGRAM_END`, the good end, its state
stands unchanged; after a fatal cause the run has failed (R14, R318; log entry 6). -/
def haltedStep (cause : HaltCause) (s : State) : Host.Outcome State Fault Refusal :=
  match cause with
  | .programEnd => .next s
  | .illegalEncoding => .fault (.halted cause)
  | .notImplemented => .fault (.halted cause)
  | .deprecatedOperand => .fault (.halted cause)
  | .boundsViolation _ => .fault (.halted cause)

end Sys2Proof.Machine
end

