-- ==== Sys2Proof/Machine/Flags.lean ====
section
/-! DEFINITION. The add-with-carry primitive, the flag-updating wrapper and the condition evaluator
(spec/40_execution_engine.md R150 to R156). -/

namespace Sys2Proof.Machine

/-- What `AddWithCarry` returns (R150). -/
structure AddResult where
  result : Word
  carryOut : Bool
  overflow : Bool
  deriving DecidableEq, Repr

/-- `AddWithCarry(x, y, carry_in)`: exact sums, narrowed at the end (R150). -/
def addWithCarry (x y : Word) (carryIn : Bool) : AddResult :=
  let unsignedSum : Nat := x.toNat + y.toNat + carryIn.toNat
  let signedSum : Int := x.toInt + y.toInt + (carryIn.toNat : Int)
  let result : Word := BitVec.ofNat 32 unsignedSum
  { result := result
    carryOut := decide (result.toNat ≠ unsignedSum)
    overflow := decide (result.toInt ≠ signedSum) }

/-- `a - b` as `AddWithCarry(a, NOT(b), 1)` (R153). -/
def subtract (a b : Word) : AddResult := addWithCarry a (~~~b) true

/-- The flags `SetFlagsNZCV` gives (R152). -/
def flagsOf (r : AddResult) : Flags :=
  { n := r.result.getLsbD 31, z := decide (r.result = 0#32), c := r.carryOut, v := r.overflow }

/-- `SetFlagsNZCV(result, carry, overflow)` (R152). -/
def State.setFlagsNZCV (s : State) (r : AddResult) : State := { s with flags := flagsOf r }

/-- The flags of MVN: N and Z of the result, C cleared, V kept (spec/43_data_processing.md R205). -/
def State.setFlagsMvn (s : State) (result : Word) : State :=
  { s with flags := { s.flags with n := result.getLsbD 31, z := decide (result = 0#32), c := false } }

/-- The base of each pair of conditions, by `cond[3:1]` (R155). -/
def conditionBase (f : Flags) (pair : BitVec 3) : Bool :=
  match pair.toNat with
  | 0 => f.z
  | 1 => f.c
  | 2 => f.n
  | 3 => f.v
  | 4 => f.c && !f.z
  | 5 => f.n == f.v
  | 6 => f.n == f.v && !f.z
  | _ => true

/-- `ConditionPassed(cond)`; `none` is the value "None" of an unconditional instruction, which passes (R154, R155). -/
def conditionPassed (cond : Option Sys2Proof.Cond) (f : Flags) : Bool :=
  match cond with
  | none => true
  | some c =>
    let base := conditionBase f (c.code.extractLsb' 1 3)
    if c.code.extractLsb' 0 1 = 1#1 ∧ c.code.extractLsb' 1 3 ≠ 7#3 then !base else base

end Sys2Proof.Machine
end

