-- ==== Sys2Proof/Machine/Operands.lean ====
section
/-! DEFINITION. The operand forms: literal and stack addresses, register lists, special-register views
(spec/45_load_store.md R240 to R245, spec/30_encoding.md R98, spec/10_state.md R36 to R39). -/

namespace Sys2Proof.Machine

/-- `Align(v, 4) = v[31:2]:0b00` (R240). -/
def align4 (v : Word) : Word := v &&& 0xFFFFFFFC#32

/-- The address of LDR (literal) (R240). -/
def literalAddress (s : State) (imm32 : Word) : Word := align4 (s.readReg pcIndex) + imm32

/-- The address of STR (SP-relative) (R241). -/
def stackAddress (s : State) (imm32 : Word) : Word := s.readReg spIndex + imm32

/-- The target of B, B cond and BL: the address of the instruction plus 4 plus the offset (R228). -/
def branchTarget (s : State) (imm32 : Word) : Word := s.readReg pcIndex + imm32

/-- The register indices of a list, ascending (R98). -/
def listed (registers : BitVec 16) : List (BitVec 4) :=
  ((List.range 16).filter fun i => registers.getLsbD i).map fun i => BitVec.ofNat 4 i

/-- `count`: the number of registers in the list (R98). -/
def listCount (registers : BitVec 16) : Nat := (listed registers).length

/-- `4*count`, modulo 2^32. -/
def listBytes (registers : BitVec 16) : Word := BitVec.ofNat 32 (4 * listCount registers)

/-- The words a multiple store writes, in its order: ascending registers at addresses rising by 4 modulo 2^32
(R242, R243, R247). -/
def storePlan (s : State) : Word → List (BitVec 4) → List (Word × Word)
  | _, [] => []
  | address, i :: is => (address, s.readReg i) :: storePlan s (address + 4#32) is

/-- The first word of a plan that is out of range: all checks come before any write (R242, R243). -/
def firstOutOfRange (plan : List (Word × Word)) : Option Word :=
  (plan.find? fun w => !inRange w.1).map Prod.fst

/-- The words of a plan stored in order. -/
def State.writeWords (s : State) : List (Word × Word) → State
  | [] => s
  | w :: ws => (s.writeWord w.1 w.2).writeWords ws

/-- PUSH's lowest address: `x[13] - 4*count` (R242). -/
def pushStart (s : State) (registers : BitVec 16) : Word := s.readReg spIndex - listBytes registers

/-- The multiple store with write-back that PUSH and STM share: every word checked, then every word written, then the
base register (R242, R243). -/
def storeMultiple (start : Word) (registers : BitVec 16) (base : BitVec 4) (newBase : Word) (s : State) :
    Host.Outcome State Fault Refusal :=
  match firstOutOfRange (storePlan s start (listed registers)) with
  | some addr => raise (.boundsViolation addr) s
  | none =>
    execute shortForm (fun t => (t.writeWords (storePlan t start (listed registers))).writeReg base newBase) s

/-! ### Special registers -/

/-- `PSR_BACKING`, slot 0 (R36). -/
def State.psrBacking (s : State) : Word := s.slot 0

/-- `PSP`, slot 1 (R36). -/
def State.psp (s : State) : Word := s.slot 1

/-- `PRIMASK`, slot 2 (R36). -/
def State.primask (s : State) : Word := s.slot 2

/-- `CONTROL`, slot 3 (R36). -/
def State.control (s : State) : Word := s.slot 3

/-- `(N<<31) | (Z<<30) | (C<<29) | (V<<28)` (R38). -/
def flagBits (f : Flags) : Word :=
  (BitVec.ofBool f.n).setWidth 32 <<< 31 ||| (BitVec.ofBool f.z).setWidth 32 <<< 30 |||
    (BitVec.ofBool f.c).setWidth 32 <<< 29 ||| (BitVec.ofBool f.v).setWidth 32 <<< 28

/-- The APSR view: the flags and bit 27 of the backing word (R37, R38). -/
def State.apsrView (s : State) : Word := flagBits s.flags ||| (s.psrBacking &&& 0x08000000#32)

/-- The IPSR view: `zext_9(PSR_BACKING[8:0])` (R37). -/
def State.ipsrView (s : State) : Word := s.psrBacking &&& 0x000001FF#32

/-- `SpecialRead(sysm)`: the read value of each identifier (R37, spec/46_system.md R260). -/
def State.specialRead (s : State) : SpecialReg → Word
  | .apsr => s.apsrView
  | .xpsr => s.apsrView ||| s.ipsrView
  | .ipsr => s.ipsrView
  | .epsr => 0#32
  | .msp => s.readReg spIndex
  | .psp => s.psp
  | .primask => s.primask &&& 0x00000001#32
  | .control => s.control &&& 0x00000003#32

end Sys2Proof.Machine
end

