-- ==== Sys2Proof/Machine/AddFamily.lean ====
section
/-! DEFINITION. The ADD family (spec/42_add_family.md R180 to R184). -/

namespace Sys2Proof.Machine

/-- `x[rd] <- x + y` with all four flags: the general ADD (R180 to R182). -/
def State.addInto (s : State) (rd : BitVec 4) (x y : Word) : State :=
  let r := addWithCarry x y false
  (s.writeReg rd r.result).setFlagsNZCV r

/-- ADD (immediate, 3-bit) (R180). -/
def execAddImm3 (imm32 : Word) (rn rd : BitVec 3) (s : State) : Host.Outcome State Fault Refusal :=
  execute shortForm (fun t => t.addInto (low rd) (t.readReg (low rn)) imm32) s

/-- ADD (immediate, 8-bit) (R181). -/
def execAddImm8 (rdn : BitVec 3) (imm32 : Word) (s : State) : Host.Outcome State Fault Refusal :=
  execute shortForm (fun t => t.addInto (low rdn) (t.readReg (low rdn)) imm32) s

/-- ADD (register) (R182). -/
def execAddReg (rm rn rd : BitVec 3) (s : State) : Host.Outcome State Fault Refusal :=
  execute shortForm (fun t => t.addInto (low rd) (t.readReg (low rn)) (t.readReg (low rm))) s

/-- ADD SP: no flag is written (R183). -/
def execAddSp (imm32 : Word) (s : State) : Host.Outcome State Fault Refusal :=
  execute shortForm (fun t => t.writeReg spIndex (addWithCarry (t.readReg spIndex) imm32 false).result) s

/-- SUB SP: no flag is written (R184). -/
def execSubSp (imm32 : Word) (s : State) : Host.Outcome State Fault Refusal :=
  execute shortForm (fun t => t.writeReg spIndex (subtract (t.readReg spIndex) imm32).result) s

end Sys2Proof.Machine
end

