-- ==== Sys2Proof/Machine/Branches.lean ====
section
/-! DEFINITION. Branches (spec/44_branches.md R220 to R228). -/

namespace Sys2Proof.Machine

/-- BL: LR takes the address of the next instruction with bit 0 set (R220). -/
def execBl (imm32 : Word) (s : State) : Host.Outcome State Fault Refusal :=
  execute longForm (fun t =>
    (t.writeReg lrIndex (setBit0 (t.readReg pcIndex))).writeReg pcIndex (branchTarget t imm32)) s

/-- BX: a plain branch; no check of bit 0 (R222). -/
def execBx (rm : BitVec 4) (s : State) : Host.Outcome State Fault Refusal :=
  execute shortForm (fun t => t.writeReg pcIndex (t.readReg rm)) s

/-- B cond (R224). -/
def execBCond (cond : Sys2Proof.Cond) (imm32 : Word) (s : State) : Host.Outcome State Fault Refusal :=
  execute shortForm (fun t =>
    if conditionPassed (some cond) t.flags then t.writeReg pcIndex (branchTarget t imm32) else t) s

/-- B (R226). -/
def execB (imm32 : Word) (s : State) : Host.Outcome State Fault Refusal :=
  execute shortForm (fun t => t.writeReg pcIndex (branchTarget t imm32)) s

end Sys2Proof.Machine
end

