-- ==== Sys2Proof/Machine/DataProcessing.lean ====
section
/-! DEFINITION. The sixteen register data-processing operations (spec/43_data_processing.md R190 to R207). -/

namespace Sys2Proof.Machine

/-- CMP (register) (R200). -/
def execCmpReg (rm rdn : BitVec 3) (s : State) : Host.Outcome State Fault Refusal :=
  execute shortForm (fun t => t.setFlagsNZCV (subtract (t.readReg (low rdn)) (t.readReg (low rm)))) s

/-- MVN (R205). -/
def execMvns (rm rdn : BitVec 3) (s : State) : Host.Outcome State Fault Refusal :=
  execute shortForm (fun t => (t.writeReg (low rdn) (~~~(t.readReg (low rm)))).setFlagsMvn (~~~(t.readReg (low rm)))) s

/-- The handler of the fourteen operations without execution semantics: `raise NotImplemented` and nothing else
(R195). -/
def unexecuted (s : State) : Host.Outcome State Fault Refusal := raise .notImplemented s

/-- ANDS: halts with `NotImplemented` (R191, R195). -/
def execAnds (_rm _rdn : BitVec 3) (s : State) : Host.Outcome State Fault Refusal := unexecuted s

/-- EORS: halts with `NotImplemented` (R192, R195). -/
def execEors (_rm _rdn : BitVec 3) (s : State) : Host.Outcome State Fault Refusal := unexecuted s

/-- LSLS: halts with `NotImplemented` (R193, R195). -/
def execLsls (_rm _rdn : BitVec 3) (s : State) : Host.Outcome State Fault Refusal := unexecuted s

/-- LSRS: halts with `NotImplemented` (R194, R195). -/
def execLsrs (_rm _rdn : BitVec 3) (s : State) : Host.Outcome State Fault Refusal := unexecuted s

/-- ASRS: halts with `NotImplemented` (R196, R195). -/
def execAsrs (_rm _rdn : BitVec 3) (s : State) : Host.Outcome State Fault Refusal := unexecuted s

/-- ADCS: halts with `NotImplemented` (R197, R195). -/
def execAdcs (_rm _rdn : BitVec 3) (s : State) : Host.Outcome State Fault Refusal := unexecuted s

/-- SBCS: halts with `NotImplemented` (R198, R195). -/
def execSbcs (_rm _rdn : BitVec 3) (s : State) : Host.Outcome State Fault Refusal := unexecuted s

/-- RORS: halts with `NotImplemented` (R199, R195). -/
def execRors (_rm _rdn : BitVec 3) (s : State) : Host.Outcome State Fault Refusal := unexecuted s

/-- TST: halts with `NotImplemented` (R201, R195). -/
def execTst (_rm _rdn : BitVec 3) (s : State) : Host.Outcome State Fault Refusal := unexecuted s

/-- RSBS: halts with `NotImplemented` (R202, R195). -/
def execRsbs (_rm _rdn : BitVec 3) (s : State) : Host.Outcome State Fault Refusal := unexecuted s

/-- CMN: halts with `NotImplemented` (R203, R195). -/
def execCmn (_rm _rdn : BitVec 3) (s : State) : Host.Outcome State Fault Refusal := unexecuted s

/-- ORRS: halts with `NotImplemented` (R204, R195). -/
def execOrrs (_rm _rdn : BitVec 3) (s : State) : Host.Outcome State Fault Refusal := unexecuted s

/-- MULS: halts with `NotImplemented` (R206, R195). -/
def execMuls (_rm _rdn : BitVec 3) (s : State) : Host.Outcome State Fault Refusal := unexecuted s

/-- BICS: halts with `NotImplemented` (R207, R195). -/
def execBics (_rm _rdn : BitVec 3) (s : State) : Host.Outcome State Fault Refusal := unexecuted s

end Sys2Proof.Machine
end

