-- ==== Sys2Proof/Machine/LoadStore.lean ====
section
/-! DEFINITION. Loads and stores (spec/45_load_store.md R240 to R244). -/

namespace Sys2Proof.Machine

/-- LDR (literal) (R240). -/
def execLdrLit (rt : BitVec 3) (imm32 : Word) (s : State) : Host.Outcome State Fault Refusal :=
  access (literalAddress s imm32)
    (execute shortForm (fun t => t.writeReg (low rt) (t.readWord (literalAddress t imm32))) s) s

/-- STR (SP-relative) (R241). -/
def execStrSp (rt : BitVec 3) (imm32 : Word) (s : State) : Host.Outcome State Fault Refusal :=
  access (stackAddress s imm32)
    (execute shortForm (fun t => t.writeWord (stackAddress t imm32) (t.readReg (low rt))) s) s

/-- PUSH (R242). -/
def execPush (registers : BitVec 16) (s : State) : Host.Outcome State Fault Refusal :=
  storeMultiple (pushStart s registers) registers spIndex (pushStart s registers) s

/-- STM: the base in the list halts with `DeprecatedOperand` before any other check (R243). -/
def execStm (rn : BitVec 3) (registers : BitVec 16) (s : State) : Host.Outcome State Fault Refusal :=
  if registers.getLsbD (low rn).toNat then raise .deprecatedOperand s
  else storeMultiple (s.readReg (low rn)) registers (low rn) (s.readReg (low rn) + listBytes registers) s

/-- LDM: halts with `NotImplemented`; no check is made on the list (R244). -/
def execLdm (_rn : BitVec 3) (_registers : BitVec 16) (s : State) : Host.Outcome State Fault Refusal := raise .notImplemented s

end Sys2Proof.Machine
end

