-- ==== Sys2Proof/Machine/MoveCompare.lean ====
section
/-! DEFINITION. MOV (immediate), CMP (immediate), MOV (register) (spec/41_move_compare.md R170 to R172). -/

namespace Sys2Proof.Machine

/-- MOV (immediate): no flag is written (R170). -/
def execMovImm (rd : BitVec 3) (imm32 : Word) (s : State) : Host.Outcome State Fault Refusal :=
  execute shortForm (fun t => t.writeReg (low rd) imm32) s

/-- CMP (immediate) (R171). -/
def execCmpImm (rn : BitVec 3) (imm32 : Word) (s : State) : Host.Outcome State Fault Refusal :=
  execute shortForm (fun t => t.setFlagsNZCV (subtract (t.readReg (low rn)) imm32)) s

/-- MOV (register): any registers, a write of register 15 is a branch (R172). -/
def execMovReg (rd rm : BitVec 4) (s : State) : Host.Outcome State Fault Refusal :=
  execute shortForm (fun t => t.writeReg rd (t.readReg rm)) s

end Sys2Proof.Machine
end

