-- ==== Sys2Proof/Machine/System.lean ====
section
/-! DEFINITION. System instructions (spec/46_system.md R260 to R262). -/

namespace Sys2Proof.Machine

/-- MRS (R260). -/
def execMrs (rd : BitVec 4) (sysm : SpecialReg) (s : State) : Host.Outcome State Fault Refusal :=
  execute longForm (fun t => t.writeReg rd (t.specialRead sysm)) s

/-- MSR: halts with `NotImplemented`; nothing is read or written (R261). -/
def execMsr (_rn : BitVec 4) (_sysm : SpecialReg) (s : State) : Host.Outcome State Fault Refusal := raise .notImplemented s

/-- BKPT: halts with `PROGRAM_END`; the immediate is ignored and the PC stays at it (R262). -/
def execBkpt (_imm8 : BitVec 8) (s : State) : Host.Outcome State Fault Refusal := raise .programEnd s

end Sys2Proof.Machine
end

