-- ==== Sys2Proof/Machine/Dispatch.lean ====
section
/-! DEFINITION. Dispatch: one handler per record (spec/40_execution_engine.md R143). -/

namespace Sys2Proof.Machine

def exec (i : Instr) (s : State) : Host.Outcome State Fault Refusal :=
  match i with
  | .addReg rm rn rd => Sys2Proof.Machine.execAddReg rm rn rd s
  | .addImm3 imm32 rn rd => Sys2Proof.Machine.execAddImm3 imm32 rn rd s
  | .movImm rd imm32 => Sys2Proof.Machine.execMovImm rd imm32 s
  | .cmpImm rn imm32 => Sys2Proof.Machine.execCmpImm rn imm32 s
  | .addImm8 rdn imm32 => Sys2Proof.Machine.execAddImm8 rdn imm32 s
  | .ands rm rdn => Sys2Proof.Machine.execAnds rm rdn s
  | .eors rm rdn => Sys2Proof.Machine.execEors rm rdn s
  | .lsls rm rdn => Sys2Proof.Machine.execLsls rm rdn s
  | .lsrs rm rdn => Sys2Proof.Machine.execLsrs rm rdn s
  | .asrs rm rdn => Sys2Proof.Machine.execAsrs rm rdn s
  | .adcs rm rdn => Sys2Proof.Machine.execAdcs rm rdn s
  | .sbcs rm rdn => Sys2Proof.Machine.execSbcs rm rdn s
  | .rors rm rdn => Sys2Proof.Machine.execRors rm rdn s
  | .tst rm rdn => Sys2Proof.Machine.execTst rm rdn s
  | .rsbs rm rdn => Sys2Proof.Machine.execRsbs rm rdn s
  | .cmpReg rm rdn => Sys2Proof.Machine.execCmpReg rm rdn s
  | .cmn rm rdn => Sys2Proof.Machine.execCmn rm rdn s
  | .orrs rm rdn => Sys2Proof.Machine.execOrrs rm rdn s
  | .muls rm rdn => Sys2Proof.Machine.execMuls rm rdn s
  | .bics rm rdn => Sys2Proof.Machine.execBics rm rdn s
  | .mvns rm rdn => Sys2Proof.Machine.execMvns rm rdn s
  | .movReg rd rm => Sys2Proof.Machine.execMovReg rd rm s
  | .bx rm => Sys2Proof.Machine.execBx rm s
  | .ldrLit rt imm32 => Sys2Proof.Machine.execLdrLit rt imm32 s
  | .strSp rt imm32 => Sys2Proof.Machine.execStrSp rt imm32 s
  | .addSp imm32 => Sys2Proof.Machine.execAddSp imm32 s
  | .subSp imm32 => Sys2Proof.Machine.execSubSp imm32 s
  | .push registers => Sys2Proof.Machine.execPush registers s
  | .bkpt imm8 => Sys2Proof.Machine.execBkpt imm8 s
  | .stm rn registers => Sys2Proof.Machine.execStm rn registers s
  | .ldm rn registers => Sys2Proof.Machine.execLdm rn registers s
  | .bCond cond imm32 => Sys2Proof.Machine.execBCond cond imm32 s
  | .b imm32 => Sys2Proof.Machine.execB imm32 s
  | .bl imm32 => Sys2Proof.Machine.execBl imm32 s
  | .msr rn sysm => Sys2Proof.Machine.execMsr rn sysm s
  | .mrs rd sysm => Sys2Proof.Machine.execMrs rd sysm s

end Sys2Proof.Machine
end

