-- ==== Sys2Proof/Machine/Fetch.lean ====
section
/-! DEFINITION. Instruction fetch and decode, and the placing of one instruction where the next fetch finds it
(spec/20_memory.md R67, R70; spec/40_execution_engine.md R140 step 2). -/

namespace Sys2Proof.Machine

/-- Fetches 4 bytes at an address and decodes them: the bounds check, then the pattern (R70, R83, R288). -/
def State.decodeAt (s : State) (addr : Word) : Except HaltCause Instr :=
  if inRange addr then
    match decodeHalves (s.readHalf addr.toNat) (s.readHalf (addr.toNat + 2)) with
    | some i => .ok i
    | none => .error .illegalEncoding
  else .error (.boundsViolation addr)

/-- Step 2 of the tick (R140, R141). -/
def State.fetch (s : State) : Except HaltCause Instr := s.decodeAt s.pc

/-- The bytes of a word of the opcode table at the PC, where the next fetch reads them; at a PC that no fetch can
read nothing is placed (log entry 8). -/
def State.placeAtPc (s : State) (nbits w : Nat) : State :=
  if inRange s.pc then { s with mem := s.mem.setBytes s.pc.toNat (tableBytes nbits w) } else s

end Sys2Proof.Machine
end

