-- ==== Sys2Proof/Machine/Step.lean ====
section
/-! DEFINITION. One tick (spec/40_execution_engine.md R140). -/

namespace Sys2Proof.Machine

/-- One tick: a halted block makes none; the fetch and the decoder may halt the block; else the instruction runs. Step
1 (`branch_taken` cleared) and step 5 (the advance) are in `raise` and `execute`; BKPT (step 3) is its own arm. -/
def step (s : State) : Host.Outcome State Fault Refusal :=
  match s.run with
  | .halted cause => haltedStep cause s
  | .running =>
    match s.fetch with
    | .error cause => raise cause s
    | .ok i => exec i s

/-- `s` with an instruction of the opcode table's numbering stored where `step` fetches its next one. -/
def State.withFetchWord (s : State) (nbits w : Nat) : State := s.placeAtPc nbits w

end Sys2Proof.Machine
end

