-- ==== Sys2Proof/Machine/Boot.lean ====
section
/-! DEFINITION. The boot port, the open parameters and the reset sequence
(spec/00_scope.md R5, R8; spec/70_reset_and_hazards.md R310 to R313). -/

namespace Sys2Proof.Machine

/-- The boot port (R8). -/
structure BootPort where
  code : List Byte
  loadAddr : Word
  entryAddr : Word
  initSp : Word
  deriving DecidableEq, Repr

/-- The open parameters (R5, R50, R311): `resetR` holds `RESET_R`; its slots 13 and 15 are the unspecified values those
registers keep when the boot copy fails, and its slot 0 to 12 and 14 those of R50. `memInit` is `MEM_INIT` as a
memory: any function from address to byte is one. -/
structure OpenParams where
  resetR : Vector Word Config.registerCount
  resetPsp : Word
  memInit : Memory
  deriving DecidableEq, Repr

/-- Power-on values (R311). The reserved slots 4 to 11 are 0 (log entry 4). -/
def powerOn (p : OpenParams) : State where
  regs := p.resetR
  flags := { n := false, z := false, c := false, v := false }
  special := (Vector.replicate 12 0#32).set 1 p.resetPsp
  mem := p.memInit
  branchTaken := false
  run := .running

/-- The image lies inside memory (R75, R312). -/
def bootInRange (b : BootPort) : Bool := decide (b.loadAddr.toNat + b.code.length ≤ Config.memSize)

/-- The reset sequence (R310): power-on values, boot copy, stack pointer, PC through the register-file write rule, whose
`branch_taken` the first tick does not see (R46). An image out of range ends it in HALTED, nothing copied (R312). -/
def boot (p : OpenParams) (b : BootPort) : State :=
  let s := powerOn p
  if bootInRange b then
    let s := { s with mem := s.mem.setBytes b.loadAddr.toNat b.code }
    { (s.writeReg spIndex b.initSp).writeReg pcIndex b.entryAddr with branchTaken := false }
  else { s with run := .halted (.boundsViolation b.loadAddr) }

/-- The open parameters `State.reset` takes: all 0 (log entries 1 and 5). -/
def OpenParams.zero : OpenParams where
  resetR := Vector.replicate 16 0#32
  resetPsp := 0#32
  memInit := []

/-- The boot port `State.reset` takes: no code, entry 0, stack pointer 0 (log entry 2). -/
def BootPort.empty : BootPort where
  code := []
  loadAddr := 0#32
  entryAddr := 0#32
  initSp := 0#32

end Sys2Proof.Machine
end

