-- ==== Sys2Proof/Machine/Observer.lean ====
section
/-! DEFINITION. The status and observer port (spec/00_scope.md R10; spec/20_memory.md R83; spec/60_exceptions.md R280).
Every accessor reads the state and none changes it. -/

namespace Sys2Proof.Machine

/-- `halted` (R10). -/
def State.isHalted (s : State) : Bool :=
  match s.run with
  | .running => false
  | .halted _ => true

/-- The code of a cause (R280). -/
def HaltCause.code : HaltCause → Nat
  | .programEnd => 1
  | .illegalEncoding => 2
  | .notImplemented => 3
  | .deprecatedOperand => 4
  | .boundsViolation _ => 5

/-- `halt_cause`, 0 while RUNNING (R280). -/
def State.haltCode (s : State) : Nat :=
  match s.run with
  | .running => 0
  | .halted cause => cause.code

/-- The address recorded with a `BoundsViolation` (R280). -/
def State.haltAddress (s : State) : Option Word :=
  match s.run with
  | .halted (.boundsViolation addr) => some addr
  | .running => none
  | .halted .programEnd => none
  | .halted .illegalEncoding => none
  | .halted .notImplemented => none
  | .halted .deprecatedOperand => none

/-- The snapshot: all 16 stored registers (the PC without the +4) and the 4 flags (R10). -/
def State.snapshot (s : State) : Vector Word Config.registerCount × Flags := (s.regs, s.flags)

/-- Decode at an address: the address is used as given, and a failure is the observer's alone (R83). -/
def State.disassemble (s : State) (addr : Word) : Except HaltCause Instr := s.decodeAt addr

end Sys2Proof.Machine
end

