-- ==== Sys2Proof/Machine/RunControl.lean ====
section
/-! DEFINITION. The run-control port: the tick loop with and without a budget (spec/00_scope.md R9; spec/40_execution_engine.md R145;
spec/60_exceptions.md R296). The budget is the caller's and no state. -/

namespace Sys2Proof.Machine

/-- The loop with a budget: at most `budget` ticks, ending early only in HALTED. -/
def runBudget : Nat → State → State
  | 0, s => s
  | budget + 1, s =>
    match s.run with
    | .halted _ => s
    | .running =>
      match step s with
      | .next t => runBudget budget t
      | .fault _ => s
      | .refused _ => s

/-- A run from `s` ends in `t`. With a budget it ends where the loop stops, HALTED or still RUNNING; without one it makes
ticks until the block is HALTED, and has no end where that never comes (R9, R145). -/
def RunsTo (budget : Option Nat) (s t : State) : Prop :=
  match budget with
  | some ticks => t = runBudget ticks s
  | none => t.run ≠ .running ∧ ∃ ticks, t = runBudget ticks s

/-- A run without a budget that never ends: the block is RUNNING after any number of ticks (R145). -/
def RunsForEver (s : State) : Prop := ∀ ticks, (runBudget ticks s).run = .running

/-- `run`: the loop starts after the reset sequence (R9, R145). -/
def RunsFromReset (p : OpenParams) (b : BootPort) (budget : Option Nat) (t : State) : Prop :=
  RunsTo budget (boot p b) t

end Sys2Proof.Machine
end

