-- ==== Sys2Proof/Safety.lean ====
section
/-! DEFINITION. What a run ends in, and the words the claims about the block are stated in. -/

namespace Sys2Proof.Machine

/-! ### The end of a run (spec/70_reset_and_hazards.md R318; spec/00_scope.md R14) -/

/-- The good end: HALTED with `PROGRAM_END` (R318 a). -/
def State.goodEnd (s : State) : Prop := s.run = .halted .programEnd

/-- A failed run: HALTED with a fatal cause, no state a claim may speak of (R318 b). -/
def State.failed (s : State) : Prop := ∃ cause, s.run = .halted cause ∧ cause ≠ .programEnd

/-- A run from `s`, with or without a budget, that does not end in a failure; one that never ends does not. -/
def SafeRun (budget : Option Nat) (s : State) : Prop := ∀ t, RunsTo budget s t → ¬ t.failed

/-! ### Frames -/

/-- Every general register but the PC and `dests`, every special register and the run state are as before. -/
def Keeps (s t : State) (dests : List (BitVec 4)) : Prop :=
  (∀ i, i ≠ pcIndex → i ∉ dests → t.stored i = s.stored i) ∧ t.special = s.special ∧ t.run = s.run

/-- Every byte of memory reads as before. -/
def KeepsMemory (s t : State) : Prop := ∀ a, t.readByte a = s.readByte a

/-- Every byte of memory outside the words at `addrs` reads as before. -/
def KeepsMemoryOutside (s t : State) (addrs : List Word) : Prop :=
  ∀ a, (∀ w ∈ addrs, a < w.toNat ∨ w.toNat + 4 ≤ a) → t.readByte a = s.readByte a

/-- The result of `x[rd] <- v` and the advance: register 15 takes `v` with bit 0 clear, `branch_taken` is set and
nothing is added; any other register takes `v` and the PC advances (spec/10_state.md R24, R28). -/
def Writes (width : Word) (s t : State) (rd : BitVec 4) (v : Word) : Prop :=
  if rd = pcIndex then t.pc = v &&& 0xFFFFFFFE#32 ∧ t.branchTaken = true
  else t.stored rd = v ∧ t.pc = s.pc + width ∧ t.branchTaken = false

/-- The outcome is the halt with this cause: nothing of the instruction is written and the PC stays
(spec/60_exceptions.md R290, R291). -/
def HaltsWith (cause : HaltCause) (s : State) (o : Host.Outcome State Fault Refusal) : Prop :=
  ∃ t, o = .next t ∧ t.run = .halted cause ∧ t.regs = s.regs ∧ t.flags = s.flags ∧ t.special = s.special ∧
    t.mem = s.mem ∧ t.branchTaken = false

/-- The outcome with its next state changed. -/
def mapNext (f : State → State) (o : Host.Outcome State Fault Refusal) : Host.Outcome State Fault Refusal :=
  match o with
  | .next t => .next (f t)
  | .fault r => .fault r
  | .refused r => .refused r

/-- The addresses of the words of a multiple store: `count` addresses from `start`, rising by 4 modulo 2^32
(spec/45_load_store.md R242, R243). -/
def wordAddresses (start : Word) (count : Nat) : List Word :=
  (List.range count).map fun k => start + BitVec.ofNat 32 (4 * k)

/-! ### Flags of sums and differences, in the words of spec/42_add_family.md and spec/41_move_compare.md -/

/-- The signed value lies outside 32 bits. -/
def signedOverflow (v : Int) : Bool := decide (v < -2147483648 ∨ 2147483648 ≤ v)

/-- N, Z, C, V of `x + y`. -/
def flagsOfSum (x y : Word) : Flags where
  n := (x + y).getLsbD 31
  z := decide (x + y = 0#32)
  c := decide (4294967296 ≤ x.toNat + y.toNat)
  v := signedOverflow (x.toInt + y.toInt)

/-- N, Z, C, V of the comparison of `x` with `y`: C is 1 iff `u(x) >= u(y)`. -/
def flagsOfDifference (x y : Word) : Flags where
  n := (x - y).getLsbD 31
  z := decide (x = y)
  c := decide (y.toNat ≤ x.toNat)
  v := signedOverflow (x.toInt - y.toInt)

/-! ### Which instruction does what -/

/-- The writers of the flags (spec/10_state.md R32). -/
def writesFlags : Instr → Bool
  | .addReg _ _ _ | .addImm3 _ _ _ | .cmpImm _ _ | .addImm8 _ _ | .cmpReg _ _ | .mvns _ _ => true
  | .movImm _ _ | .ands _ _ | .eors _ _ | .lsls _ _ | .lsrs _ _ | .asrs _ _ | .adcs _ _ | .sbcs _ _
  | .rors _ _ | .tst _ _ | .rsbs _ _ | .cmn _ _ | .orrs _ _ | .muls _ _ | .bics _ _ | .movReg _ _
  | .bx _ | .ldrLit _ _ | .strSp _ _ | .addSp _ | .subSp _ | .push _ | .bkpt _ | .stm _ _
  | .ldm _ _ | .bCond _ _ | .b _ | .bl _ | .msr _ _ | .mrs _ _ => false

/-- The readers of the flags: B cond, and MRS of APSR or XPSR (spec/10_state.md R33). -/
def readsFlags : Instr → Bool
  | .mrs _ sysm => sysm == .apsr || sysm == .xpsr
  | .bCond _ _ => true
  | .addReg _ _ _ | .addImm3 _ _ _ | .movImm _ _ | .cmpImm _ _ | .addImm8 _ _ | .ands _ _
  | .eors _ _ | .lsls _ _ | .lsrs _ _ | .asrs _ _ | .adcs _ _ | .sbcs _ _ | .rors _ _ | .tst _ _
  | .rsbs _ _ | .cmpReg _ _ | .cmn _ _ | .orrs _ _ | .muls _ _ | .bics _ _ | .mvns _ _
  | .movReg _ _ | .bx _ | .ldrLit _ _ | .strSp _ _ | .addSp _ | .subSp _ | .push _ | .bkpt _
  | .stm _ _ | .ldm _ _ | .b _ | .bl _ | .msr _ _ => false

/-- The instructions that write memory (spec/20_memory.md R72). -/
def storesMemory : Instr → Bool
  | .strSp _ _ | .push _ | .stm _ _ => true
  | .addReg _ _ _ | .addImm3 _ _ _ | .movImm _ _ | .cmpImm _ _ | .addImm8 _ _ | .ands _ _
  | .eors _ _ | .lsls _ _ | .lsrs _ _ | .asrs _ _ | .adcs _ _ | .sbcs _ _ | .rors _ _ | .tst _ _
  | .rsbs _ _ | .cmpReg _ _ | .cmn _ _ | .orrs _ _ | .muls _ _ | .bics _ _ | .mvns _ _
  | .movReg _ _ | .bx _ | .ldrLit _ _ | .addSp _ | .subSp _ | .bkpt _ | .ldm _ _ | .bCond _ _
  | .b _ | .bl _ | .msr _ _ | .mrs _ _ => false

/-- MRS, the one executed instruction that names a special register (spec/10_state.md R34, R40). -/
def readsSpecial : Instr → Bool
  | .mrs _ _ => true
  | .addReg _ _ _ | .addImm3 _ _ _ | .movImm _ _ | .cmpImm _ _ | .addImm8 _ _ | .ands _ _
  | .eors _ _ | .lsls _ _ | .lsrs _ _ | .asrs _ _ | .adcs _ _ | .sbcs _ _ | .rors _ _ | .tst _ _
  | .rsbs _ _ | .cmpReg _ _ | .cmn _ _ | .orrs _ _ | .muls _ _ | .bics _ _ | .mvns _ _
  | .movReg _ _ | .bx _ | .ldrLit _ _ | .strSp _ _ | .addSp _ | .subSp _ | .push _ | .bkpt _
  | .stm _ _ | .ldm _ _ | .bCond _ _ | .b _ | .bl _ | .msr _ _ => false

/-- The records without a handler (spec/30_encoding.md R120). -/
def lacksHandler : Instr → Bool
  | .ands _ _ | .eors _ _ | .lsls _ _ | .lsrs _ _ | .asrs _ _ | .adcs _ _ | .sbcs _ _ | .rors _ _
  | .tst _ _ | .rsbs _ _ | .cmn _ _ | .orrs _ _ | .muls _ _ | .bics _ _ | .ldm _ _ | .msr _ _ => true
  | .addReg _ _ _ | .addImm3 _ _ _ | .movImm _ _ | .cmpImm _ _ | .addImm8 _ _ | .cmpReg _ _
  | .mvns _ _ | .movReg _ _ | .bx _ | .ldrLit _ _ | .strSp _ _ | .addSp _ | .subSp _ | .push _
  | .bkpt _ | .stm _ _ | .bCond _ _ | .b _ | .bl _ | .mrs _ _ => false

/-- The handler writes register 15 (spec/40_execution_engine.md R144). -/
def redirects (f : Flags) : Instr → Bool
  | .bl _ | .bx _ | .b _ => true
  | .bCond cond _ => conditionPassed (some cond) f
  | .movReg rd _ => rd == pcIndex
  | .mrs rd _ => rd == pcIndex
  | .addReg _ _ _ | .addImm3 _ _ _ | .movImm _ _ | .cmpImm _ _ | .addImm8 _ _ | .ands _ _
  | .eors _ _ | .lsls _ _ | .lsrs _ _ | .asrs _ _ | .adcs _ _ | .sbcs _ _ | .rors _ _ | .tst _ _
  | .rsbs _ _ | .cmpReg _ _ | .cmn _ _ | .orrs _ _ | .muls _ _ | .bics _ _ | .mvns _ _
  | .ldrLit _ _ | .strSp _ _ | .addSp _ | .subSp _ | .push _ | .bkpt _ | .stm _ _ | .ldm _ _
  | .msr _ _ => false

/-- The cause is a `BoundsViolation`. -/
def HaltCause.isBounds : HaltCause → Bool
  | .boundsViolation _ => true
  | .programEnd | .illegalEncoding | .notImplemented | .deprecatedOperand => false

/-- The causes an executed record can raise, the fetch apart (spec/60_exceptions.md R289). -/
def mayRaise (c : HaltCause) : Instr → Bool
  | .strSp _ _ | .push _ => c.isBounds
  | .stm _ _ => c.isBounds || c == .deprecatedOperand
  | .bkpt _ => c == .programEnd
  | .ands _ _ | .eors _ _ | .lsls _ _ | .lsrs _ _ | .asrs _ _ | .adcs _ _ | .sbcs _ _ | .rors _ _
  | .tst _ _ | .rsbs _ _ | .cmn _ _ | .orrs _ _ | .muls _ _ | .bics _ _ | .ldm _ _ | .msr _ _ => c == .notImplemented
  | .addReg _ _ _ | .addImm3 _ _ _ | .movImm _ _ | .cmpImm _ _ | .addImm8 _ _ | .cmpReg _ _
  | .mvns _ _ | .movReg _ _ | .bx _ | .ldrLit _ _ | .addSp _ | .subSp _ | .bCond _ _ | .b _ | .bl _
  | .mrs _ _ => false

/-! ### The illegal space (spec/30_encoding.md R118) -/

/-- `lo <= hw1 <= hi`. -/
def halfBetween (lo hi : Nat) (hw1 : Half) : Bool := decide (lo ≤ hw1.toNat ∧ hw1.toNat ≤ hi)

/-- The illegal short forms, range by range as the table of R118 lists them. -/
def illegalShort (hw1 : Half) : Bool :=
  halfBetween 0x0000 0x17FF hw1 || halfBetween 0x1A00 0x1BFF hw1 || halfBetween 0x1E00 0x1FFF hw1 ||
  halfBetween 0x3800 0x3FFF hw1 || halfBetween 0x4400 0x45FF hw1 ||
  (halfBetween 0x4700 0x477F hw1 && hw1.extractLsb' 0 3 != 0#3) || halfBetween 0x4780 0x47FF hw1 ||
  halfBetween 0x5000 0x8FFF hw1 || halfBetween 0x9800 0x9FFF hw1 || halfBetween 0xA000 0xA7FF hw1 ||
  halfBetween 0xA800 0xAFFF hw1 || halfBetween 0xB100 0xB3FF hw1 || halfBetween 0xB600 0xBDFF hw1 ||
  halfBetween 0xBF00 0xBFFF hw1 || halfBetween 0xDE00 0xDEFF hw1 || halfBetween 0xDF00 0xDFFF hw1

/-- The defined set of SYSm: 0, 3, 5, 6, 8, 9, 16, 20 (spec/10_state.md R35). -/
def sysmDefined (n : BitVec 8) : Bool :=
  n == 0#8 || n == 3#8 || n == 5#8 || n == 6#8 || n == 8#8 || n == 9#8 || n == 16#8 || n == 20#8

/-- `hw1:hw2` matches BL, or MSR or MRS with a SYSm of the defined set (R115 to R117). -/
def legalLong (hw1 hw2 : Half) : Bool :=
  (hw1 &&& 0xF800#16 == 0xF000#16 && hw2 &&& 0xD000#16 == 0xD000#16) ||
  (hw1 &&& 0xFFF0#16 == 0xF380#16 && hw2 &&& 0xFF00#16 == 0x8800#16 && sysmDefined (hw2.setWidth 8)) ||
  (hw1 == 0xF3EF#16 && hw2 &&& 0xF000#16 == 0x8000#16 && sysmDefined (hw2.setWidth 8))

/-! ### An invariant of the block -/

/-- Memory is in its canonical form and the stored PC is even (spec/10_state.md R29). -/
structure State.Inv (s : State) : Prop where
  memCanonical : s.mem.wf
  pcEven : s.pc.getLsbD 0 = false

end Sys2Proof.Machine
end

