-- ==== Sys2Proof/Certificates/Slice0/Obligations.lean ====
section
/-! DEFINITION. The statements for the provers. Word patterns are written out from spec/30_encoding.md, which took most
of them from general knowledge (its G1; log entry 3); `hw2` is the halfword after a short form, which the decoder
ignores. -/

open Sys2Proof Sys2Proof.Machine

/-! ### The decoder and the encoder -/

/-- R122 (b): decode after encode, for every well-formed record and any bytes that follow. -/
def Obligations.DecodeOfEncodeIsTheRecord : Prop :=
  ∀ (i : Instr) (rest : List Byte), i.wf = true → decode (encode i ++ rest) = .ok (i, rest)

/-- R122 (b), the other way: what decodes is well-formed, has the width of its record and re-encodes to the bytes
consumed. -/
def Obligations.EncodeOfDecodedIsTheConsumedBytes : Prop :=
  ∀ (bytes rest : List Byte) (i : Instr), decode bytes = .ok (i, rest) →
    i.wf = true ∧ bytes = encode i ++ rest ∧ bytes.length = i.width + rest.length

/-- R91, R94, R281: the length checks come first, and the decoder has three outcomes. -/
def Obligations.TruncatedInputIffBytesAreMissing : Prop :=
  (∀ bytes : List Byte, bytes.length < 2 → decode bytes = .error .truncatedInput) ∧
  (∀ (b0 b1 : Byte) (rest : List Byte), isLongForm (halfOfBytes b0 b1) = false →
    decode (b0 :: b1 :: rest) = decoded (decodeShort (halfOfBytes b0 b1)) rest) ∧
  (∀ (b0 b1 : Byte) (rest : List Byte), isLongForm (halfOfBytes b0 b1) = true → rest.length < 2 →
    decode (b0 :: b1 :: rest) = .error .truncatedInput) ∧
  (∀ (b0 b1 b2 b3 : Byte) (rest : List Byte), isLongForm (halfOfBytes b0 b1) = true →
    decode (b0 :: b1 :: b2 :: b3 :: rest) =
      decoded (decodeLong (halfOfBytes b0 b1) (halfOfBytes b2 b3)) rest) ∧
  (∀ bytes : List Byte, decode bytes = .error .truncatedInput →
    bytes.length < 4 ∧ (2 ≤ bytes.length → ∃ b0 b1 r, bytes = b0 :: b1 :: r ∧ isLongForm (halfOfBytes b0 b1) = true))

/-- R92: the three long prefixes, and nothing else. -/
def Obligations.LongFormIsTheThreePrefixes : Prop :=
  ∀ hw1 : Half, isLongForm hw1 = true ↔ 59392 ≤ hw1.toNat

/-- R101, R118: a short form is refused exactly in the ranges the spec lists. -/
def Obligations.ShortFormIllegalExactlyInTheListedRanges : Prop :=
  ∀ hw1 hw2 : Half, isLongForm hw1 = false → (decodeHalves hw1 hw2 = none ↔ illegalShort hw1 = true)

/-- R115 to R118: a long form is refused exactly when it matches none of BL, MSR and MRS. -/
def Obligations.LongFormIllegalExactlyOutsideBlMsrMrs : Prop :=
  ∀ hw1 hw2 : Half, isLongForm hw1 = true → (decodeHalves hw1 hw2 = none ↔ legalLong hw1 hw2 = false)

/-- R102, R104 to R110, R112 to R114: match and mask of the short forms whose fields the record carries as they are. -/
def Obligations.ShortFormsDecodeByMatchAndMask : Prop :=
  ∀ hw1 hw2 : Half,
    (hw1 &&& 0xFE00#16 = 0x1800#16 → decodeHalves hw1 hw2 =
      some (.addReg (hw1.extractLsb' 6 3) (hw1.extractLsb' 3 3) (hw1.extractLsb' 0 3))) ∧
    (hw1 &&& 0xFE00#16 = 0x1C00#16 → decodeHalves hw1 hw2 =
      some (.addImm3 ((hw1.extractLsb' 6 3).setWidth 32) (hw1.extractLsb' 3 3) (hw1.extractLsb' 0 3))) ∧
    (hw1 &&& 0xF800#16 = 0x2000#16 → decodeHalves hw1 hw2 =
      some (.movImm (hw1.extractLsb' 8 3) ((hw1.extractLsb' 0 8).setWidth 32))) ∧
    (hw1 &&& 0xF800#16 = 0x2800#16 → decodeHalves hw1 hw2 =
      some (.cmpImm (hw1.extractLsb' 8 3) ((hw1.extractLsb' 0 8).setWidth 32))) ∧
    (hw1 &&& 0xF800#16 = 0x3000#16 → decodeHalves hw1 hw2 =
      some (.addImm8 (hw1.extractLsb' 8 3) ((hw1.extractLsb' 0 8).setWidth 32))) ∧
    (hw1 &&& 0xFC00#16 = 0x4000#16 → decodeHalves hw1 hw2 =
      some (decodeDp (hw1.extractLsb' 6 4) (hw1.extractLsb' 3 3) (hw1.extractLsb' 0 3))) ∧
    (hw1 &&& 0xFF87#16 = 0x4700#16 → decodeHalves hw1 hw2 = some (.bx (hw1.extractLsb' 3 4))) ∧
    (hw1 &&& 0xF800#16 = 0x4800#16 → decodeHalves hw1 hw2 =
      some (.ldrLit (hw1.extractLsb' 8 3) ((hw1.extractLsb' 0 8).setWidth 32 <<< 2))) ∧
    (hw1 &&& 0xF800#16 = 0x9000#16 → decodeHalves hw1 hw2 =
      some (.strSp (hw1.extractLsb' 8 3) ((hw1.extractLsb' 0 8).setWidth 32 <<< 2))) ∧
    (hw1 &&& 0xF800#16 = 0xC000#16 → decodeHalves hw1 hw2 =
      some (.stm (hw1.extractLsb' 8 3) ((hw1.extractLsb' 0 8).setWidth 16))) ∧
    (hw1 &&& 0xF800#16 = 0xC800#16 → decodeHalves hw1 hw2 =
      some (.ldm (hw1.extractLsb' 8 3) ((hw1.extractLsb' 0 8).setWidth 16))) ∧
    (∀ c : Cond, c ≠ .al → hw1 &&& 0xFF00#16 = 0xD000#16 ||| c.code.setWidth 16 <<< 8 → decodeHalves hw1 hw2 =
      some (.bCond c ((hw1.extractLsb' 0 8).signExtend 32 <<< 1))) ∧
    (hw1 &&& 0xF800#16 = 0xE000#16 → decodeHalves hw1 hw2 =
      some (.b ((hw1.extractLsb' 0 11).signExtend 32 <<< 1)))

/-- R107: the sixteen operations by number. -/
def Obligations.DataProcessingOperationsByNumber : Prop :=
  ∀ rm rdn : BitVec 3,
    (List.range 16).map (fun op => decodeDp (BitVec.ofNat 4 op) rm rdn) =
      [.ands rm rdn, .eors rm rdn, .lsls rm rdn, .lsrs rm rdn, .asrs rm rdn, .adcs rm rdn, .sbcs rm rdn, .rors rm rdn,
        .tst rm rdn, .rsbs rm rdn, .cmpReg rm rdn, .cmn rm rdn, .orrs rm rdn, .muls rm rdn, .bics rm rdn, .mvns rm rdn]

/-- Words of the spec (95_test_vectors.md V40 to V47, 30_encoding.md R121) and the records they stand for. -/
def Obligations.WordsOfTheSpecDecode : Prop :=
  decodeHalves 0x1808#16 0#16 = some (.addReg 0#3 1#3 0#3) ∧
  decodeHalves 0x1DC3#16 0#16 = some (.addImm3 7#32 0#3 3#3) ∧
  decodeHalves 0x2009#16 0#16 = some (.movImm 0#3 9#32) ∧
  decodeHalves 0x43C9#16 0#16 = some (.mvns 1#3 1#3) ∧
  decodeHalves 0x46F7#16 0#16 = some (.movReg 15#4 14#4) ∧
  decodeHalves 0x4770#16 0#16 = some (.bx 14#4) ∧
  decodeHalves 0xB503#16 0#16 = some (.push 0x4003#16) ∧
  decodeHalves 0xD1FB#16 0#16 = some (.bCond .ne 0xFFFFFFF6#32) ∧
  decodeHalves 0xF400#16 0xF800#16 = some (.bl 0xFFC00000#32) ∧
  decodeHalves 0xF3EF#16 0x8208#16 = some (.mrs 2#4 .msp) ∧
  decodeHalves 0xF381#16 0x8809#16 = some (.msr 1#4 .psp) ∧
  decodeHalves 0xBF00#16 0#16 = none

/-! ### The arithmetic primitive and the condition evaluator -/

/-- R150, with its equivalent forms of carry and overflow. -/
def Obligations.AddWithCarryReportsUnsignedAndSignedWrap : Prop :=
  ∀ (x y : Word) (c : Bool),
    (addWithCarry x y c).result.toNat = (x.toNat + y.toNat + c.toNat) % 4294967296 ∧
    ((addWithCarry x y c).carryOut = true ↔
      (addWithCarry x y c).result.toNat ≠ x.toNat + y.toNat + c.toNat) ∧
    (addWithCarry x y c).carryOut = (x.toNat + y.toNat + c.toNat).testBit 32 ∧
    ((addWithCarry x y c).overflow = true ↔
      (addWithCarry x y c).result.toInt ≠ x.toInt + y.toInt + (c.toNat : Int)) ∧
    ((addWithCarry x y c).overflow = true ↔
      x.getLsbD 31 = y.getLsbD 31 ∧ (addWithCarry x y c).result.getLsbD 31 ≠ x.getLsbD 31)

/-- R151. -/
def Obligations.AddWithCarryCommutesAndHasTheWorkedValues : Prop :=
  (∀ (x y : Word) (c : Bool), addWithCarry x y c = addWithCarry y x c) ∧
  addWithCarry 0#32 0#32 false = ⟨0#32, false, false⟩ ∧
  addWithCarry 0xFFFFFFFF#32 1#32 false = ⟨0#32, true, false⟩ ∧
  addWithCarry 0x7FFFFFFF#32 1#32 false = ⟨0x80000000#32, false, true⟩

/-- R153: subtraction is addition of the complement; its carry is "no borrow". -/
def Obligations.SubtractionCarriesWhenNoBorrow : Prop :=
  ∀ a b : Word, subtract a b = addWithCarry a (~~~b) true ∧ (subtract a b).result = a - b ∧
    (subtract a b).carryOut = decide (b.toNat ≤ a.toNat) ∧
    (subtract a b).overflow = signedOverflow (a.toInt - b.toInt)

/-- R154: the number and the meaning of each condition. -/
def Obligations.ConditionsMeanTheirTable : Prop :=
  ∀ f : Flags,
    [Cond.eq, .ne, .cs, .cc, .mi, .pl, .vs, .vc, .hi, .ls, .ge, .lt, .gt, .le, .al].map
        (fun c => (c.code.toNat, conditionPassed (some c) f)) =
      [(0, f.z), (1, !f.z), (2, f.c), (3, !f.c), (4, f.n), (5, !f.n), (6, f.v), (7, !f.v), (8, f.c && !f.z),
        (9, !f.c || f.z), (10, f.n == f.v), (11, f.n != f.v), (12, !f.z && f.n == f.v), (13, f.z || f.n != f.v),
        (14, true)] ∧
    conditionPassed none f = true

/-! ### Registers, memory and special registers -/

/-- R23, R24, R51: the register-file read and write rules. -/
def Obligations.RegisterFileReadAndWriteRules : Prop :=
  ∀ (s : State) (i : BitVec 4) (v : Word),
    (s.readReg i = if i = 15#4 then s.stored 15#4 + 4#32 else s.stored i) ∧
    ((s.writeReg i v).stored i = if i = 15#4 then v &&& 0xFFFFFFFE#32 else v) ∧
    ((s.writeReg i v).branchTaken = if i = 15#4 then true else s.branchTaken) ∧
    (∀ j, j ≠ i → (s.writeReg i v).stored j = s.stored j) ∧
    (s.writeReg i v).flags = s.flags ∧ (s.writeReg i v).special = s.special ∧ (s.writeReg i v).mem = s.mem ∧
    (s.writeReg i v).run = s.run ∧
    (s.writeReg 15#4 v).readReg 15#4 = (v &&& 0xFFFFFFFE#32) + 4#32 ∧
    ((s.writeReg 15#4 v).readReg 15#4 = v + 4#32 ↔ v.getLsbD 0 = false)

/-- R64, R65: a word is little-endian, a store in range writes its four bytes and no other, an access out of range is
refused. -/
def Obligations.WordAccessIsLittleEndianLocalAndBounded : Prop :=
  ∀ (s : State) (addr v : Word),
    (s.readWord addr).toNat = (s.readByte addr.toNat).toNat + 256 * (s.readByte (addr.toNat + 1)).toNat +
      65536 * (s.readByte (addr.toNat + 2)).toNat + 16777216 * (s.readByte (addr.toNat + 3)).toNat ∧
    (s.writeWord addr v).readByte addr.toNat = v.extractLsb' 0 8 ∧
    (s.writeWord addr v).readByte (addr.toNat + 1) = v.extractLsb' 8 8 ∧
    (s.writeWord addr v).readByte (addr.toNat + 2) = v.extractLsb' 16 8 ∧
    (s.writeWord addr v).readByte (addr.toNat + 3) = v.extractLsb' 24 8 ∧
    (s.writeWord addr v).readWord addr = v ∧
    KeepsMemoryOutside s (s.writeWord addr v) [addr] ∧
    (∀ act, addr.toNat ≤ 4294967292 → access addr act s = act) ∧
    (∀ act, 4294967292 < addr.toNat → HaltsWith (.boundsViolation addr) s (access addr act s))

/-- R68, R81: the next fetch at an address sees a word stored there, first halfword in its low bits. -/
def Obligations.FetchSeesAStoredWord : Prop :=
  ∀ (s : State) (v : Word) (i : Instr), s.pc.toNat ≤ 4294967292 →
    decodeHalves (v.extractLsb' 0 16) (v.extractLsb' 16 16) = some i → (s.writeWord s.pc v).fetch = .ok i

/-- R37, R38, R39: each view of the special registers, bit by bit. -/
def Obligations.SpecialViewsReadTheirOwnedBits : Prop :=
  ∀ (s : State) (j : Nat), j < 32 →
    (s.specialRead .apsr).getLsbD j = (if j = 31 then s.flags.n else if j = 30 then s.flags.z else if j = 29 then
      s.flags.c else if j = 28 then s.flags.v else if j = 27 then (s.slot 0).getLsbD 27 else false) ∧
    (s.specialRead .ipsr).getLsbD j = (decide (j ≤ 8) && (s.slot 0).getLsbD j) ∧
    (s.specialRead .epsr).getLsbD j = false ∧
    (s.specialRead .xpsr).getLsbD j = ((s.specialRead .apsr).getLsbD j || (s.specialRead .ipsr).getLsbD j) ∧
    (s.specialRead .msp).getLsbD j = (s.stored 13#4).getLsbD j ∧
    (s.specialRead .psp).getLsbD j = (s.slot 1).getLsbD j ∧
    (s.specialRead .primask).getLsbD j = (decide (j = 0) && (s.slot 2).getLsbD j) ∧
    (s.specialRead .control).getLsbD j = (decide (j ≤ 1) && (s.slot 3).getLsbD j)

/-- R98: a register list is walked in ascending order and names the set bits; `count` is their number. -/
def Obligations.RegisterListsAscend : Prop :=
  ∀ registers : BitVec 16,
    (listed registers).Pairwise (fun i j => i.toNat < j.toNat) ∧
    (∀ i : BitVec 4, i ∈ listed registers ↔ registers.getLsbD i.toNat = true) ∧
    listCount registers = (List.range 16).countP fun k => registers.getLsbD k

/-! ### MOV and CMP -/

/-- R170. -/
def Obligations.MovImmediateWritesZeroExtendedImmediate : Prop :=
  ∀ (rd : BitVec 3) (imm8 : BitVec 8) (hw2 : Half) (s : State),
    decodeHalves (0x2000#16 ||| rd.setWidth 16 <<< 8 ||| imm8.setWidth 16) hw2 =
      some (.movImm rd (imm8.setWidth 32)) ∧
    ∃ t, exec (.movImm rd (imm8.setWidth 32)) s = .next t ∧ t.stored (low rd) = imm8.setWidth 32 ∧
      t.flags = s.flags ∧ t.pc = s.pc + 2#32 ∧ KeepsMemory s t ∧ Keeps s t [low rd]

/-- R171. -/
def Obligations.CmpImmediateSetsFlagsOnly : Prop :=
  ∀ (rn : BitVec 3) (imm8 : BitVec 8) (hw2 : Half) (s : State),
    decodeHalves (0x2800#16 ||| rn.setWidth 16 <<< 8 ||| imm8.setWidth 16) hw2 =
      some (.cmpImm rn (imm8.setWidth 32)) ∧
    ∃ t, exec (.cmpImm rn (imm8.setWidth 32)) s = .next t ∧
      t.flags = flagsOfDifference (s.stored (low rn)) (imm8.setWidth 32) ∧
      t.pc = s.pc + 2#32 ∧ KeepsMemory s t ∧ Keeps s t []

/-- R200. -/
def Obligations.CmpRegisterSetsFlagsOnly : Prop :=
  ∀ (rm rn : BitVec 3) (hw2 : Half) (s : State),
    decodeHalves (0x4280#16 ||| rm.setWidth 16 <<< 3 ||| rn.setWidth 16) hw2 = some (.cmpReg rm rn) ∧
    ∃ t, exec (.cmpReg rm rn) s = .next t ∧
      t.flags = flagsOfDifference (s.stored (low rn)) (s.stored (low rm)) ∧
      t.pc = s.pc + 2#32 ∧ KeepsMemory s t ∧ Keeps s t []

/-- R172: any registers; a source 15 reads the address plus 4, a destination 15 branches. -/
def Obligations.MovRegisterCopiesAnyRegister : Prop :=
  ∀ (rd rm : BitVec 4) (hw2 : Half) (s : State),
    decodeHalves (0x4600#16 ||| (rd.extractLsb' 3 1).setWidth 16 <<< 7 ||| rm.setWidth 16 <<< 3 |||
      (rd.extractLsb' 0 3).setWidth 16) hw2 = some (.movReg rd rm) ∧
    ∃ t, exec (.movReg rd rm) s = .next t ∧
      Writes 2#32 s t rd (if rm = 15#4 then s.pc + 4#32 else s.stored rm) ∧
      t.flags = s.flags ∧ KeepsMemory s t ∧ Keeps s t [rd]

/-! ### The ADD family and MVN -/

/-- R180. -/
def Obligations.AddImmediate3WritesSumAndFlags : Prop :=
  ∀ (imm3 rn rd : BitVec 3) (hw2 : Half) (s : State),
    decodeHalves (0x1C00#16 ||| imm3.setWidth 16 <<< 6 ||| rn.setWidth 16 <<< 3 ||| rd.setWidth 16) hw2 =
      some (.addImm3 (imm3.setWidth 32) rn rd) ∧
    ∃ t, exec (.addImm3 (imm3.setWidth 32) rn rd) s = .next t ∧
      t.stored (low rd) = s.stored (low rn) + imm3.setWidth 32 ∧
      t.flags = flagsOfSum (s.stored (low rn)) (imm3.setWidth 32) ∧
      t.pc = s.pc + 2#32 ∧ KeepsMemory s t ∧ Keeps s t [low rd]

/-- R181. -/
def Obligations.AddImmediate8WritesSumAndFlags : Prop :=
  ∀ (rdn : BitVec 3) (imm8 : BitVec 8) (hw2 : Half) (s : State),
    decodeHalves (0x3000#16 ||| rdn.setWidth 16 <<< 8 ||| imm8.setWidth 16) hw2 =
      some (.addImm8 rdn (imm8.setWidth 32)) ∧
    ∃ t, exec (.addImm8 rdn (imm8.setWidth 32)) s = .next t ∧
      t.stored (low rdn) = s.stored (low rdn) + imm8.setWidth 32 ∧
      t.flags = flagsOfSum (s.stored (low rdn)) (imm8.setWidth 32) ∧
      t.pc = s.pc + 2#32 ∧ KeepsMemory s t ∧ Keeps s t [low rdn]

/-- R182: both operands are read before the destination is written. -/
def Obligations.AddRegisterWritesSumAndFlags : Prop :=
  ∀ (rm rn rd : BitVec 3) (hw2 : Half) (s : State),
    decodeHalves (0x1800#16 ||| rm.setWidth 16 <<< 6 ||| rn.setWidth 16 <<< 3 ||| rd.setWidth 16) hw2 =
      some (.addReg rm rn rd) ∧
    ∃ t, exec (.addReg rm rn rd) s = .next t ∧
      t.stored (low rd) = s.stored (low rn) + s.stored (low rm) ∧
      t.flags = flagsOfSum (s.stored (low rn)) (s.stored (low rm)) ∧
      t.pc = s.pc + 2#32 ∧ KeepsMemory s t ∧ Keeps s t [low rd]

/-- R183, R184: no flag is written. -/
def Obligations.StackPointerAdjustWritesNoFlag : Prop :=
  ∀ (imm7 : BitVec 7) (hw2 : Half) (s : State),
    decodeHalves (0xB000#16 ||| imm7.setWidth 16) hw2 = some (.addSp (imm7.setWidth 32 <<< 2)) ∧
    decodeHalves (0xB080#16 ||| imm7.setWidth 16) hw2 = some (.subSp (imm7.setWidth 32 <<< 2)) ∧
    (∃ t, exec (.addSp (imm7.setWidth 32 <<< 2)) s = .next t ∧
      t.stored 13#4 = s.stored 13#4 + imm7.setWidth 32 <<< 2 ∧ t.flags = s.flags ∧ t.pc = s.pc + 2#32 ∧
      KeepsMemory s t ∧ Keeps s t [13#4]) ∧
    ∃ t, exec (.subSp (imm7.setWidth 32 <<< 2)) s = .next t ∧
      t.stored 13#4 = s.stored 13#4 - imm7.setWidth 32 <<< 2 ∧ t.flags = s.flags ∧ t.pc = s.pc + 2#32 ∧
      KeepsMemory s t ∧ Keeps s t [13#4]

/-- R205: C cleared, V kept. -/
def Obligations.MvnComplementsClearsCarryKeepsOverflow : Prop :=
  ∀ (rm rd : BitVec 3) (hw2 : Half) (s : State),
    decodeHalves (0x43C0#16 ||| rm.setWidth 16 <<< 3 ||| rd.setWidth 16) hw2 = some (.mvns rm rd) ∧
    ∃ t, exec (.mvns rm rd) s = .next t ∧ t.stored (low rd) = ~~~(s.stored (low rm)) ∧
      t.flags.n = !(s.stored (low rm)).getLsbD 31 ∧
      t.flags.z = decide (s.stored (low rm) = 0xFFFFFFFF#32) ∧ t.flags.c = false ∧ t.flags.v = s.flags.v ∧
      t.pc = s.pc + 2#32 ∧ KeepsMemory s t ∧ Keeps s t [low rd]

/-- R195: the fourteen operations without execution semantics, which are all but `1010` and `1111`. -/
def Obligations.UnexecutedDataProcessingHalts : Prop :=
  ∀ (rm rdn : BitVec 3) (s : State),
    (∀ i ∈ [Instr.ands rm rdn, .eors rm rdn, .lsls rm rdn, .lsrs rm rdn, .asrs rm rdn, .adcs rm rdn, .sbcs rm rdn,
        .rors rm rdn, .tst rm rdn, .rsbs rm rdn, .cmn rm rdn, .orrs rm rdn, .muls rm rdn, .bics rm rdn],
      HaltsWith .notImplemented s (exec i s)) ∧
    ∀ op : BitVec 4, op ≠ 0b1010#4 → op ≠ 0b1111#4 →
      HaltsWith .notImplemented s (exec (decodeDp op rm rdn) s)

/-! ### Branches -/

/-- R220, R97: the offset of BL from its fields, the link and the target. -/
def Obligations.BranchWithLinkLinksAndBranches : Prop :=
  (∀ (sgn j1 j2 : BitVec 1) (imm10 : BitVec 10) (imm11 : BitVec 11), ∃ imm32 : Word,
    decodeHalves (0xF000#16 ||| sgn.setWidth 16 <<< 10 ||| imm10.setWidth 16)
      (0xD000#16 ||| j1.setWidth 16 <<< 13 ||| j2.setWidth 16 <<< 11 ||| imm11.setWidth 16) = some (.bl imm32) ∧
    imm32.toInt = -16777216 * (sgn.toNat : Int) + (if j1 = sgn then 8388608 else 0) +
      (if j2 = sgn then 4194304 else 0) + 4096 * (imm10.toNat : Int) + 2 * (imm11.toNat : Int)) ∧
  ∀ (imm32 : Word) (s : State), ∃ t, exec (.bl imm32) s = .next t ∧
    t.stored 14#4 = (s.pc + 4#32) ||| 1#32 ∧ t.pc = (s.pc + 4#32 + imm32) &&& 0xFFFFFFFE#32 ∧
    t.branchTaken = true ∧ t.flags = s.flags ∧ KeepsMemory s t ∧ Keeps s t [14#4]

/-- R222. -/
def Obligations.BranchExchangeIsAPlainBranch : Prop :=
  ∀ (rm : BitVec 4) (hw2 : Half) (s : State),
    decodeHalves (0x4700#16 ||| rm.setWidth 16 <<< 3) hw2 = some (.bx rm) ∧
    ∃ t, exec (.bx rm) s = .next t ∧
      t.pc = (if rm = 15#4 then s.pc + 4#32 else s.stored rm) &&& 0xFFFFFFFE#32 ∧ t.branchTaken = true ∧
      t.flags = s.flags ∧ KeepsMemory s t ∧ Keeps s t []

/-- R224. -/
def Obligations.ConditionalBranchGoesOrAdvances : Prop :=
  ∀ (cond : Cond) (imm8 : BitVec 8) (hw2 : Half) (s : State), cond ≠ .al →
    decodeHalves (0xD000#16 ||| cond.code.setWidth 16 <<< 8 ||| imm8.setWidth 16) hw2 =
      some (.bCond cond (imm8.signExtend 32 <<< 1)) ∧
    ∃ t, exec (.bCond cond (imm8.signExtend 32 <<< 1)) s = .next t ∧
      t.pc = (if conditionPassed (some cond) s.flags
        then (s.pc + 4#32 + imm8.signExtend 32 <<< 1) &&& 0xFFFFFFFE#32 else s.pc + 2#32) ∧
      t.branchTaken = conditionPassed (some cond) s.flags ∧
      t.flags = s.flags ∧ KeepsMemory s t ∧ Keeps s t []

/-- R226. -/
def Obligations.UnconditionalBranchGoesToItsTarget : Prop :=
  ∀ (imm11 : BitVec 11) (hw2 : Half) (s : State),
    decodeHalves (0xE000#16 ||| imm11.setWidth 16) hw2 = some (.b (imm11.signExtend 32 <<< 1)) ∧
    ∃ t, exec (.b (imm11.signExtend 32 <<< 1)) s = .next t ∧
      t.pc = (s.pc + 4#32 + imm11.signExtend 32 <<< 1) &&& 0xFFFFFFFE#32 ∧ t.branchTaken = true ∧
      t.flags = s.flags ∧ KeepsMemory s t ∧ Keeps s t []

/-! ### Loads and stores -/

/-- R240: the literal address is a multiple of 4, so the load never halts. -/
def Obligations.LiteralLoadReadsTheAlignedWord : Prop :=
  ∀ (rt : BitVec 3) (imm8 : BitVec 8) (hw2 : Half) (s : State),
    decodeHalves (0x4800#16 ||| rt.setWidth 16 <<< 8 ||| imm8.setWidth 16) hw2 =
      some (.ldrLit rt (imm8.setWidth 32 <<< 2)) ∧
    literalAddress s (imm8.setWidth 32 <<< 2) = ((s.pc + 4#32) &&& 0xFFFFFFFC#32) + imm8.setWidth 32 <<< 2 ∧
    ∃ t, exec (.ldrLit rt (imm8.setWidth 32 <<< 2)) s = .next t ∧
      t.stored (low rt) = s.readWord (literalAddress s (imm8.setWidth 32 <<< 2)) ∧
      t.flags = s.flags ∧ t.pc = s.pc + 2#32 ∧ KeepsMemory s t ∧ Keeps s t [low rt]

/-- R241: the store, and the halt of one out of range. -/
def Obligations.StackStoreWritesOneWordOrHalts : Prop :=
  ∀ (rt : BitVec 3) (imm8 : BitVec 8) (hw2 : Half) (s : State),
    decodeHalves (0x9000#16 ||| rt.setWidth 16 <<< 8 ||| imm8.setWidth 16) hw2 =
      some (.strSp rt (imm8.setWidth 32 <<< 2)) ∧
    stackAddress s (imm8.setWidth 32 <<< 2) = s.stored 13#4 + imm8.setWidth 32 <<< 2 ∧
    ((stackAddress s (imm8.setWidth 32 <<< 2)).toNat ≤ 4294967292 →
      ∃ t, exec (.strSp rt (imm8.setWidth 32 <<< 2)) s = .next t ∧
        t.readWord (stackAddress s (imm8.setWidth 32 <<< 2)) = s.stored (low rt) ∧
        KeepsMemoryOutside s t [stackAddress s (imm8.setWidth 32 <<< 2)] ∧
        t.flags = s.flags ∧ t.pc = s.pc + 2#32 ∧ Keeps s t []) ∧
    (4294967292 < (stackAddress s (imm8.setWidth 32 <<< 2)).toNat →
      HaltsWith (.boundsViolation (stackAddress s (imm8.setWidth 32 <<< 2))) s
        (exec (.strSp rt (imm8.setWidth 32 <<< 2)) s))

/-- R242: every word in range, the whole block is stored and SP becomes its lowest address; else the first word out of
range halts and nothing is stored. -/
def Obligations.PushStoresItsBlockOrHalts : Prop :=
  (∀ (m : BitVec 1) (list : BitVec 8) (hw2 : Half),
    decodeHalves (0xB400#16 ||| m.setWidth 16 <<< 8 ||| list.setWidth 16) hw2 =
      some (.push (m.setWidth 16 <<< 14 ||| list.setWidth 16))) ∧
  ∀ (registers : BitVec 16) (s : State),
    pushStart s registers = s.stored 13#4 - BitVec.ofNat 32 (4 * listCount registers) ∧
    ((∀ w ∈ wordAddresses (pushStart s registers) (listCount registers), w.toNat ≤ 4294967292) →
      ∃ t, exec (.push registers) s = .next t ∧ t.stored 13#4 = pushStart s registers ∧
        (∀ (k : Nat) (i : BitVec 4), (listed registers)[k]? = some i →
          t.readWord (pushStart s registers + BitVec.ofNat 32 (4 * k)) = s.readReg i) ∧
        KeepsMemoryOutside s t (wordAddresses (pushStart s registers) (listCount registers)) ∧
        t.flags = s.flags ∧ t.pc = s.pc + 2#32 ∧ Keeps s t [13#4]) ∧
    ∀ k, k < listCount registers →
      4294967292 < (pushStart s registers + BitVec.ofNat 32 (4 * k)).toNat →
      (∀ j < k, (pushStart s registers + BitVec.ofNat 32 (4 * j)).toNat ≤ 4294967292) →
      HaltsWith (.boundsViolation (pushStart s registers + BitVec.ofNat 32 (4 * k))) s (exec (.push registers) s)

/-- R243: base in the list, `DeprecatedOperand` before any other check; else every word in range, the words are stored
and the base is written back; else the first word out of range halts and nothing is stored. -/
def Obligations.StoreMultipleStoresItsWordsOrHalts : Prop :=
  (∀ (rn : BitVec 3) (list : BitVec 8) (hw2 : Half),
    decodeHalves (0xC000#16 ||| rn.setWidth 16 <<< 8 ||| list.setWidth 16) hw2 =
      some (.stm rn (list.setWidth 16))) ∧
  ∀ (rn : BitVec 3) (registers : BitVec 16) (s : State),
    (registers.getLsbD rn.toNat = true → HaltsWith .deprecatedOperand s (exec (.stm rn registers) s)) ∧
    (registers.getLsbD rn.toNat = false →
      (∀ w ∈ wordAddresses (s.stored (low rn)) (listCount registers), w.toNat ≤ 4294967292) →
      ∃ t, exec (.stm rn registers) s = .next t ∧
        t.stored (low rn) = s.stored (low rn) + BitVec.ofNat 32 (4 * listCount registers) ∧
        (∀ (k : Nat) (i : BitVec 4), (listed registers)[k]? = some i →
          t.readWord (s.stored (low rn) + BitVec.ofNat 32 (4 * k)) = s.readReg i) ∧
        KeepsMemoryOutside s t (wordAddresses (s.stored (low rn)) (listCount registers)) ∧
        t.flags = s.flags ∧ t.pc = s.pc + 2#32 ∧ Keeps s t [low rn]) ∧
    ∀ k, registers.getLsbD rn.toNat = false → k < listCount registers →
      4294967292 < (s.stored (low rn) + BitVec.ofNat 32 (4 * k)).toNat →
      (∀ j < k, (s.stored (low rn) + BitVec.ofNat 32 (4 * j)).toNat ≤ 4294967292) →
      HaltsWith (.boundsViolation (s.stored (low rn) + BitVec.ofNat 32 (4 * k))) s (exec (.stm rn registers) s)

/-- R244. -/
def Obligations.LoadMultipleHalts : Prop :=
  ∀ (rn : BitVec 3) (list : BitVec 8) (hw2 : Half) (s : State),
    decodeHalves (0xC800#16 ||| rn.setWidth 16 <<< 8 ||| list.setWidth 16) hw2 =
      some (.ldm rn (list.setWidth 16)) ∧
    HaltsWith .notImplemented s (exec (.ldm rn (list.setWidth 16)) s)

/-! ### System instructions -/

/-- R260, R35: each number names its identifier, and `Rd` takes the identifier's read value; no flag, no special
register changes. -/
def Obligations.MrsWritesTheSpecialReadValue : Prop :=
  (∀ rd : BitVec 4, ∀ p ∈ [(0#8, SpecialReg.apsr), (3#8, .xpsr), (5#8, .ipsr), (6#8, .epsr), (8#8, .msp), (9#8, .psp),
      (16#8, .primask), (20#8, .control)],
    p.2.sysm = p.1 ∧
      decodeHalves 0xF3EF#16 (0x8000#16 ||| rd.setWidth 16 <<< 8 ||| p.1.setWidth 16) = some (.mrs rd p.2)) ∧
  ∀ (rd : BitVec 4) (sysm : SpecialReg) (s : State),
    decodeHalves 0xF3EF#16 (0x8000#16 ||| rd.setWidth 16 <<< 8 ||| sysm.sysm.setWidth 16) = some (.mrs rd sysm) ∧
    ∃ t, exec (.mrs rd sysm) s = .next t ∧ Writes 4#32 s t rd (s.specialRead sysm) ∧
      t.flags = s.flags ∧ KeepsMemory s t ∧ Keeps s t [rd]

/-- R261, R35: each number names its identifier, and the record halts. -/
def Obligations.MsrHalts : Prop :=
  (∀ rn : BitVec 4, ∀ p ∈ [(0#8, SpecialReg.apsr), (3#8, .xpsr), (5#8, .ipsr), (6#8, .epsr), (8#8, .msp), (9#8, .psp),
      (16#8, .primask), (20#8, .control)],
    decodeHalves (0xF380#16 ||| rn.setWidth 16) (0x8800#16 ||| p.1.setWidth 16) = some (.msr rn p.2)) ∧
  ∀ (rn : BitVec 4) (sysm : SpecialReg) (s : State),
    decodeHalves (0xF380#16 ||| rn.setWidth 16) (0x8800#16 ||| sysm.sysm.setWidth 16) = some (.msr rn sysm) ∧
    HaltsWith .notImplemented s (exec (.msr rn sysm) s)

/-- R262. -/
def Obligations.BreakpointEndsTheProgram : Prop :=
  ∀ (imm8 : BitVec 8) (hw2 : Half) (s : State),
    decodeHalves (0xBE00#16 ||| imm8.setWidth 16) hw2 = some (.bkpt imm8) ∧
    HaltsWith .programEnd s (exec (.bkpt imm8) s)

/-! ### The tick -/

/-- R140, R141, R67: the bytes at the PC decode to `i`, so the step of a running block is `exec i`. The clearing of
`branch_taken` and the advance are inside `exec`, so `step` adds nothing around it. -/
def Obligations.StepRunsTheDecodedInstruction : Prop :=
  ∀ (s : State) (i : Instr) (rest : List Byte), s.run = .running → s.pc.toNat ≤ 4294967292 →
    decode [s.readByte s.pc.toNat, s.readByte (s.pc.toNat + 1), s.readByte (s.pc.toNat + 2),
      s.readByte (s.pc.toNat + 3)] = .ok (i, rest) → step s = exec i s

/-- R142, R70: the failures of step 2 of the tick; four bytes are never truncated. -/
def Obligations.FetchAndDecodeFailuresHalt : Prop :=
  (∀ b0 b1 b2 b3 : Byte, decode [b0, b1, b2, b3] ≠ .error .truncatedInput) ∧
  (∀ s : State, s.run = .running → 4294967292 < s.pc.toNat → HaltsWith (.boundsViolation s.pc) s (step s)) ∧
  ∀ (s : State) (e : DecodeError), s.run = .running → s.pc.toNat ≤ 4294967292 →
    decode [s.readByte s.pc.toNat, s.readByte (s.pc.toNat + 1), s.readByte (s.pc.toNat + 2),
      s.readByte (s.pc.toNat + 3)] = .error e → HaltsWith .illegalEncoding s (step s)

/-- R288: the checks of a tick in their fixed order, seen through `step`. -/
def Obligations.ChecksComeInTheFixedOrder : Prop :=
  ∀ s : State, s.run = .running →
    (4294967292 < s.pc.toNat → HaltsWith (.boundsViolation s.pc) s (step s)) ∧
    (s.pc.toNat ≤ 4294967292 →
      (decodeHalves (s.readHalf s.pc.toNat) (s.readHalf (s.pc.toNat + 2)) = none →
        HaltsWith .illegalEncoding s (step s)) ∧
      ∀ i, decodeHalves (s.readHalf s.pc.toNat) (s.readHalf (s.pc.toNat + 2)) = some i →
        (∀ imm8, i = .bkpt imm8 → HaltsWith .programEnd s (step s)) ∧
        (lacksHandler i = true → HaltsWith .notImplemented s (step s)) ∧
        (∀ rn registers, i = .stm rn registers → registers.getLsbD rn.toNat = true →
          HaltsWith .deprecatedOperand s (step s)) ∧
        (∀ rn registers, i = .stm rn registers → registers.getLsbD rn.toNat = false →
          (∃ w ∈ wordAddresses (s.stored (low rn)) (listCount registers), 4294967292 < w.toNat) →
          ∃ w ∈ wordAddresses (s.stored (low rn)) (listCount registers), 4294967292 < w.toNat ∧
            HaltsWith (.boundsViolation w) s (step s)) ∧
        (∀ registers, i = .push registers →
          (∃ w ∈ wordAddresses (pushStart s registers) (listCount registers), 4294967292 < w.toNat) →
          ∃ w ∈ wordAddresses (pushStart s registers) (listCount registers), 4294967292 < w.toNat ∧
            HaltsWith (.boundsViolation w) s (step s)) ∧
        (∀ rt imm32, i = .strSp rt imm32 → 4294967292 < (stackAddress s imm32).toNat →
          HaltsWith (.boundsViolation (stackAddress s imm32)) s (step s)))

/-- R289: an instruction raises no other cause than the table gives it. -/
def Obligations.OnlyTheListedCausesAreRaised : Prop :=
  ∀ (i : Instr) (s t : State) (c : HaltCause), i.wf = true → s.run = .running → exec i s = .next t →
    t.run = .halted c → mayRaise c i = true

/-- R14, R146: a tick of a running block always has a next state, a halted one included. -/
def Obligations.EveryTickOfARunningBlockAnswers : Prop :=
  ∀ s : State, s.run = .running → ∃ t, step s = .next t

/-- R290, R291: whatever halts the block, the state is that before the instruction plus the cause. -/
def Obligations.HaltsArePrecise : Prop :=
  ∀ (s t : State) (c : HaltCause), s.run = .running → step s = .next t → t.run = .halted c →
    t.regs = s.regs ∧ t.flags = s.flags ∧ t.special = s.special ∧ t.mem = s.mem ∧ t.branchTaken = false

/-- R292: a halted block makes no tick. What `step` answers there is the model's choice (log entry 6). -/
def Obligations.HaltedBlockMakesNoTick : Prop :=
  ∀ (s : State) (c : HaltCause), s.run = .halted c →
    (c = .programEnd → step s = .next s) ∧ (c ≠ .programEnd → step s = .fault (.halted c)) ∧
    ∀ k, runBudget k s = s

/-- R28, R144: `branch_taken` after an instruction, and the automatic advance. -/
def Obligations.AdvanceUnlessTheHandlerRedirects : Prop :=
  ∀ (i : Instr) (s t : State), s.run = .running → exec i s = .next t → t.run = .running →
    t.branchTaken = redirects s.flags i ∧
    (redirects s.flags i = false → t.pc = s.pc + BitVec.ofNat 32 i.width)

/-! ### Whole-machine rules -/

/-- R29: every step keeps memory canonical and the PC even. -/
def Obligations.StepKeepsTheInvariant : Prop :=
  ∀ s t : State, s.Inv → step s = .next t → t.Inv

/-- R29, R50: the invariant holds at reset, and after every reset sequence whose image fits. -/
def Obligations.ResetMeetsTheInvariant : Prop :=
  State.reset.Inv ∧ ∀ (p : OpenParams) (b : BootPort), p.memInit.wf → bootInRange b = true → (boot p b).Inv

/-- R40: no step writes a special register; in every state a reset can lead to, MRS reads what R40 says. -/
def Obligations.SpecialRegistersAreNeverWritten : Prop :=
  (∀ s t : State, step s = .next t → t.special = s.special) ∧
  ∀ (p : OpenParams) (b : BootPort) (k : Nat),
    (runBudget k (boot p b)).specialRead .ipsr = 0#32 ∧ (runBudget k (boot p b)).specialRead .epsr = 0#32 ∧
    (runBudget k (boot p b)).specialRead .primask = 0#32 ∧ (runBudget k (boot p b)).specialRead .control = 0#32 ∧
    (runBudget k (boot p b)).specialRead .psp = p.resetPsp ∧
    (runBudget k (boot p b)).specialRead .msp = (runBudget k (boot p b)).stored 13#4 ∧
    (runBudget k (boot p b)).specialRead .xpsr = (runBudget k (boot p b)).specialRead .apsr ∧
    (runBudget k (boot p b)).specialRead .apsr = flagBits (runBudget k (boot p b)).flags

/-- R41: but for MRS, nothing depends on PRIMASK, CONTROL, PSP or any other special register. -/
def Obligations.SpecialRegistersDoNotAffectExecution : Prop :=
  ∀ (s : State) (special : Vector Word Config.specialCount),
    (∀ i, s.fetch = .ok i → readsSpecial i = false) →
    step { s with special := special } = mapNext (fun t => { t with special := special }) (step s)

/-- R33, R158: but for B cond and MRS of APSR or XPSR, the flags influence nothing but flags. -/
def Obligations.FlagsAreReadOnlyByBranchesAndMrs : Prop :=
  ∀ (i : Instr) (s : State) (f : Flags), readsFlags i = false →
    ∃ t u, exec i s = .next t ∧ exec i { s with flags := f } = .next u ∧ u.regs = t.regs ∧ u.special = t.special ∧
      u.mem = t.mem ∧ u.branchTaken = t.branchTaken ∧ u.run = t.run

/-- R31, R32: no other instruction writes a flag. -/
def Obligations.FlagsChangeOnlyInFlagSettingInstructions : Prop :=
  ∀ (i : Instr) (s t : State), writesFlags i = false → exec i s = .next t → t.flags = s.flags

/-- R72: no other instruction writes memory. -/
def Obligations.MemoryChangesOnlyInStores : Prop :=
  ∀ (i : Instr) (s t : State), storesMemory i = false → exec i s = .next t → t.mem = s.mem

/-! ### Reset, budget and observer -/

/-- R310, R313, R50: the state after a reset whose image fits. -/
def Obligations.ResetSequenceLoadsTheBootPort : Prop :=
  ∀ (p : OpenParams) (b : BootPort), b.loadAddr.toNat + b.code.length ≤ 4294967296 →
    (boot p b).run = .running ∧ (boot p b).branchTaken = false ∧
    (boot p b).flags = { n := false, z := false, c := false, v := false } ∧
    (boot p b).stored 13#4 = b.initSp ∧ (boot p b).pc = b.entryAddr &&& 0xFFFFFFFE#32 ∧
    (∀ i : BitVec 4, i ≠ 13#4 → i ≠ 15#4 → (boot p b).stored i = p.resetR[i.toNat]'i.isLt) ∧
    (boot p b).slot 0 = 0#32 ∧ (boot p b).slot 1 = p.resetPsp ∧ (boot p b).slot 2 = 0#32 ∧ (boot p b).slot 3 = 0#32 ∧
    (∀ (k : Nat) (v : Byte), b.code[k]? = some v → (boot p b).readByte (b.loadAddr.toNat + k) = v) ∧
    ∀ a, a < b.loadAddr.toNat ∨ b.loadAddr.toNat + b.code.length ≤ a → (boot p b).readByte a = p.memInit.get a

/-- R312: an image out of range halts the reset with nothing copied, and no tick is ever made; one in range is copied
to its addresses; an empty one changes nothing. -/
def Obligations.ImageOutOfRangeHaltsTheReset : Prop :=
  ∀ (p : OpenParams) (b : BootPort),
    (4294967296 < b.loadAddr.toNat + b.code.length →
      (boot p b).run = .halted (.boundsViolation b.loadAddr) ∧ (boot p b).mem = p.memInit ∧
      (boot p b).regs = p.resetR ∧ ∀ k, runBudget k (boot p b) = boot p b) ∧
    (b.loadAddr.toNat + b.code.length ≤ 4294967296 → (boot p b).run = .running ∧
      ∀ (k : Nat) (v : Byte), b.code[k]? = some v → (boot p b).readByte (b.loadAddr.toNat + k) = v) ∧
    (b.code = [] → (boot p b).run = .running ∧ (boot p b).mem = p.memInit)

/-- R9, R145, R296: a budget only cuts a run in two. Without one a run goes on tick by tick until the block is HALTED,
where it ends, in one state; or it runs for ever. A block that is HALTED ends every run at once. -/
def Obligations.BudgetStopsAndRunContinues : Prop :=
  ∀ s : State,
    (∀ j k, runBudget (j + k) s = runBudget k (runBudget j s)) ∧
    ((∃! t, RunsTo none s t) ∨ RunsForEver s) ∧ ¬ ((∃ t, RunsTo none s t) ∧ RunsForEver s) ∧
    (∀ t, RunsTo none s t → t.run ≠ .running) ∧
    (∀ k t, RunsTo (some k) s t → t.run ≠ .running → RunsTo none s t) ∧
    (∀ u, s.run = .running → step s = .next u →
      (∀ t, RunsTo none s t ↔ RunsTo none u t) ∧ ∀ k t, RunsTo (some (k + 1)) s t ↔ RunsTo (some k) u t) ∧
    (s.run ≠ .running → ∀ budget t, RunsTo budget s t ↔ t = s) ∧
    ∀ p b budget t, s = boot p b → (RunsFromReset p b budget t ↔ RunsTo budget s t)

/-- R318: a budgeted run ends in exactly one of three ways. That the host's run (`Core.run`) of a run that does not fail
answers its last state, and that of a failed one a fault one step later, is the model's choice (log entry 6). -/
def Obligations.RunEndsInExactlyOneOfThreeWays : Prop :=
  ∀ (k : Nat) (s : State), s.run = .running →
    ((runBudget k s).run = .running ∨ (runBudget k s).goodEnd ∨ (runBudget k s).failed) ∧
    ¬ ((runBudget k s).run = .running ∧ (runBudget k s).goodEnd) ∧
    ¬ ((runBudget k s).run = .running ∧ (runBudget k s).failed) ∧
    ¬ ((runBudget k s).goodEnd ∧ (runBudget k s).failed) ∧
    (SafeRun (some k) s → Host.Core.run Sys2Proof.core k s = .next (runBudget k s)) ∧
    (∀ c, c ≠ .programEnd → (runBudget k s).run = .halted c →
      Host.Core.run Sys2Proof.core (k + 1) s = .fault (.halted c))

/-- R10, R280, R83, R70: `halted`, `halt_cause` and its address by the number of the cause, the snapshot of the stored
registers (the PC without the +4) and the flags, and decode at an address, which answers what the decoder port answers
for the four bytes there. -/
def Obligations.ObserverPortReadsTheState : Prop :=
  ∀ (s : State) (addr : Word),
    (s.run = .running → s.isHalted = false ∧ s.haltCode = 0 ∧ s.haltAddress = none) ∧
    (∀ p ∈ [(1, HaltCause.programEnd), (2, .illegalEncoding), (3, .notImplemented), (4, .deprecatedOperand)],
      s.run = .halted p.2 → s.isHalted = true ∧ s.haltCode = p.1 ∧ s.haltAddress = none) ∧
    (s.run = .halted (.boundsViolation addr) → s.isHalted = true ∧ s.haltCode = 5 ∧ s.haltAddress = some addr) ∧
    (∀ i : BitVec 4, s.snapshot.1[i.toNat]'i.isLt = s.stored i) ∧
    (∀ i : BitVec 4, i ≠ 15#4 → s.snapshot.1[i.toNat]'i.isLt = s.readReg i) ∧
    s.snapshot.1[15] = s.pc ∧ s.snapshot.1[15] + 4#32 = s.readReg 15#4 ∧ s.snapshot.2 = s.flags ∧
    (addr.toNat ≤ 4294967292 → ∀ (i : Instr) (rest : List Byte),
      decode [s.readByte addr.toNat, s.readByte (addr.toNat + 1), s.readByte (addr.toNat + 2),
        s.readByte (addr.toNat + 3)] = .ok (i, rest) → s.disassemble addr = .ok i) ∧
    (addr.toNat ≤ 4294967292 → ∀ e : DecodeError,
      decode [s.readByte addr.toNat, s.readByte (addr.toNat + 1), s.readByte (addr.toNat + 2),
        s.readByte (addr.toNat + 3)] = .error e → s.disassemble addr = .error .illegalEncoding) ∧
    (4294967292 < addr.toNat → s.disassemble addr = .error (.boundsViolation addr))
end

