-- ==== Sys2Proof/Laws/State.lean ====
section
/-! SUPPORT. What each update of the state does to each field and each register, so that no later proof unfolds a
record update. -/

namespace Sys2Proof.Machine

/-! ### Register slots -/

@[simp] theorem State.stored_store_same (s : State) (i : BitVec 4) (v : Word) : (s.store i v).stored i = v := by
  simp [State.stored, State.store]

theorem State.stored_store_ne (s : State) {i j : BitVec 4} (v : Word) (h : j ≠ i) :
    (s.store i v).stored j = s.stored j := by
  have : i.toNat ≠ j.toNat := fun e => h (BitVec.eq_of_toNat_eq e.symm)
  simp [State.stored, State.store, Vector.getElem_set_ne, this]

theorem State.stored_store (s : State) (i j : BitVec 4) (v : Word) :
    (s.store i v).stored j = if j = i then v else s.stored j := by
  split
  · next h => subst h; simp
  · next h => exact State.stored_store_ne s v h

/-- Two states with the same 16 stored registers have the same register array. -/
theorem State.regs_ext {s t : State} (h : ∀ i, s.stored i = t.stored i) : s.regs = t.regs := by
  apply Vector.ext
  intro k hk
  have := h (BitVec.ofNat 4 k)
  simpa [State.stored, Nat.mod_eq_of_lt hk] using this

@[simp] theorem State.store_flags (s : State) (i : BitVec 4) (v : Word) : (s.store i v).flags = s.flags := rfl
@[simp] theorem State.store_special (s : State) (i : BitVec 4) (v : Word) : (s.store i v).special = s.special := rfl
@[simp] theorem State.store_mem (s : State) (i : BitVec 4) (v : Word) : (s.store i v).mem = s.mem := rfl
@[simp] theorem State.store_run (s : State) (i : BitVec 4) (v : Word) : (s.store i v).run = s.run := rfl
@[simp] theorem State.store_branchTaken (s : State) (i : BitVec 4) (v : Word) :
    (s.store i v).branchTaken = s.branchTaken := rfl

/-! ### The register-file write rule -/

theorem State.stored_writeReg (s : State) (i j : BitVec 4) (v : Word) :
    (s.writeReg i v).stored j = if j = i then (if i = pcIndex then clearBit0 v else v) else s.stored j := by
  unfold State.writeReg
  split
  · next h => exact (State.stored_store s i j (clearBit0 v))
  · next h => exact State.stored_store s i j v

@[simp] theorem State.writeReg_flags (s : State) (i : BitVec 4) (v : Word) : (s.writeReg i v).flags = s.flags := by
  unfold State.writeReg; split <;> rfl
@[simp] theorem State.writeReg_special (s : State) (i : BitVec 4) (v : Word) :
    (s.writeReg i v).special = s.special := by
  unfold State.writeReg; split <;> rfl
@[simp] theorem State.writeReg_mem (s : State) (i : BitVec 4) (v : Word) : (s.writeReg i v).mem = s.mem := by
  unfold State.writeReg; split <;> rfl
@[simp] theorem State.writeReg_run (s : State) (i : BitVec 4) (v : Word) : (s.writeReg i v).run = s.run := by
  unfold State.writeReg; split <;> rfl
theorem State.writeReg_branchTaken (s : State) (i : BitVec 4) (v : Word) :
    (s.writeReg i v).branchTaken = (decide (i = pcIndex) || s.branchTaken) := by
  unfold State.writeReg; split <;> simp [*]

@[simp] theorem low_ne_pcIndex (i : BitVec 3) : low i ≠ pcIndex := by
  revert i; decide
@[simp] theorem spIndex_ne_pcIndex : spIndex ≠ pcIndex := by decide
@[simp] theorem lrIndex_ne_pcIndex : lrIndex ≠ pcIndex := by decide
@[simp] theorem low_ne_spIndex (i : BitVec 3) : low i ≠ spIndex := by
  revert i; decide
@[simp] theorem low_ne_lrIndex (i : BitVec 3) : low i ≠ lrIndex := by
  revert i; decide

/-! ### Flags, memory and the run state -/

@[simp] theorem State.setFlagsNZCV_flags (s : State) (r : AddResult) : (s.setFlagsNZCV r).flags = flagsOf r := rfl
@[simp] theorem State.setFlagsNZCV_stored (s : State) (r : AddResult) (i : BitVec 4) :
    (s.setFlagsNZCV r).stored i = s.stored i := rfl
@[simp] theorem State.setFlagsNZCV_special (s : State) (r : AddResult) : (s.setFlagsNZCV r).special = s.special := rfl
@[simp] theorem State.setFlagsNZCV_mem (s : State) (r : AddResult) : (s.setFlagsNZCV r).mem = s.mem := rfl
@[simp] theorem State.setFlagsNZCV_run (s : State) (r : AddResult) : (s.setFlagsNZCV r).run = s.run := rfl
@[simp] theorem State.setFlagsNZCV_branchTaken (s : State) (r : AddResult) :
    (s.setFlagsNZCV r).branchTaken = s.branchTaken := rfl

@[simp] theorem State.setFlagsMvn_flags (s : State) (v : Word) :
    (s.setFlagsMvn v).flags = { n := v.getLsbD 31, z := decide (v = 0#32), c := false, v := s.flags.v } := rfl
@[simp] theorem State.setFlagsMvn_stored (s : State) (v : Word) (i : BitVec 4) :
    (s.setFlagsMvn v).stored i = s.stored i := rfl
@[simp] theorem State.setFlagsMvn_special (s : State) (v : Word) : (s.setFlagsMvn v).special = s.special := rfl
@[simp] theorem State.setFlagsMvn_mem (s : State) (v : Word) : (s.setFlagsMvn v).mem = s.mem := rfl
@[simp] theorem State.setFlagsMvn_run (s : State) (v : Word) : (s.setFlagsMvn v).run = s.run := rfl
@[simp] theorem State.setFlagsMvn_branchTaken (s : State) (v : Word) :
    (s.setFlagsMvn v).branchTaken = s.branchTaken := rfl

@[simp] theorem State.writeByte_mem (s : State) (a : Nat) (v : Byte) : (s.writeByte a v).mem = s.mem.set a v := rfl
@[simp] theorem State.writeByte_regs (s : State) (a : Nat) (v : Byte) : (s.writeByte a v).regs = s.regs := rfl

@[simp] theorem State.writeWord_regs (s : State) (a v : Word) : (s.writeWord a v).regs = s.regs := rfl
@[simp] theorem State.writeWord_stored (s : State) (a v : Word) (i : BitVec 4) :
    (s.writeWord a v).stored i = s.stored i := rfl
@[simp] theorem State.writeWord_flags (s : State) (a v : Word) : (s.writeWord a v).flags = s.flags := rfl
@[simp] theorem State.writeWord_special (s : State) (a v : Word) : (s.writeWord a v).special = s.special := rfl
@[simp] theorem State.writeWord_run (s : State) (a v : Word) : (s.writeWord a v).run = s.run := rfl
@[simp] theorem State.writeWord_branchTaken (s : State) (a v : Word) :
    (s.writeWord a v).branchTaken = s.branchTaken := rfl

/-- Storing a plan of words changes memory alone. -/
theorem State.writeWords_regs (ws : List (Word × Word)) (s : State) : (s.writeWords ws).regs = s.regs := by
  induction ws generalizing s with
  | nil => rfl
  | cons w ws ih => exact ih _
@[simp] theorem State.writeWords_stored (ws : List (Word × Word)) (s : State) (i : BitVec 4) :
    (s.writeWords ws).stored i = s.stored i := by
  simp [State.stored, State.writeWords_regs]
@[simp] theorem State.writeWords_flags (ws : List (Word × Word)) (s : State) :
    (s.writeWords ws).flags = s.flags := by
  induction ws generalizing s with
  | nil => rfl
  | cons w ws ih => exact ih _
@[simp] theorem State.writeWords_special (ws : List (Word × Word)) (s : State) :
    (s.writeWords ws).special = s.special := by
  induction ws generalizing s with
  | nil => rfl
  | cons w ws ih => exact ih _
@[simp] theorem State.writeWords_run (ws : List (Word × Word)) (s : State) : (s.writeWords ws).run = s.run := by
  induction ws generalizing s with
  | nil => rfl
  | cons w ws ih => exact ih _
@[simp] theorem State.writeWords_branchTaken (ws : List (Word × Word)) (s : State) :
    (s.writeWords ws).branchTaken = s.branchTaken := by
  induction ws generalizing s with
  | nil => rfl
  | cons w ws ih => exact ih _

/-! ### The advance -/

@[simp] theorem State.advance_flags (s : State) (w : Word) : (s.advance w).flags = s.flags := by
  unfold State.advance; split <;> rfl
@[simp] theorem State.advance_special (s : State) (w : Word) : (s.advance w).special = s.special := by
  unfold State.advance; split <;> rfl
@[simp] theorem State.advance_mem (s : State) (w : Word) : (s.advance w).mem = s.mem := by
  unfold State.advance; split <;> rfl
@[simp] theorem State.advance_run (s : State) (w : Word) : (s.advance w).run = s.run := by
  unfold State.advance; split <;> rfl
@[simp] theorem State.advance_branchTaken (s : State) (w : Word) : (s.advance w).branchTaken = s.branchTaken := by
  unfold State.advance; split <;> simp_all
theorem State.stored_advance (s : State) (w : Word) (j : BitVec 4) :
    (s.advance w).stored j = if j = pcIndex ∧ s.branchTaken = false then s.pc + w else s.stored j := by
  unfold State.advance
  cases h : s.branchTaken <;> simp [State.stored_store]

/-- The clearing of `branch_taken` reads back nowhere else. -/
@[simp] theorem State.stored_clear (s : State) (b : Bool) (i : BitVec 4) :
    ({ s with branchTaken := b } : State).stored i = s.stored i := rfl
@[simp] theorem State.readReg_clear (s : State) (b : Bool) (i : BitVec 4) :
    ({ s with branchTaken := b } : State).readReg i = s.readReg i := rfl
@[simp] theorem State.readReg_low (s : State) (i : BitVec 3) : s.readReg (low i) = s.stored (low i) := by
  simp [State.readReg]
@[simp] theorem State.readReg_sp (s : State) : s.readReg spIndex = s.stored spIndex := by
  simp [State.readReg]
@[simp] theorem State.readReg_pc (s : State) : s.readReg pcIndex = s.pc + 4#32 := by
  simp [State.readReg, State.pc]

end Sys2Proof.Machine
end

