-- ==== Sys2Proof/Laws/Memory.lean ====
section
/-! SUPPORT. Read after write, and that every memory operation keeps the canonical form. -/

namespace Sys2Proof.Machine

/-! ### Read after write, for every list -/

theorem Memory.get_erase (m : Memory) (a b : Nat) :
    (m.erase a).get b = if b = a then Memory.unlisted else m.get b := by
  induction m with
  | nil => simp [Memory.erase, Memory.get]
  | cons c m ih =>
    by_cases h : c.1 = a
    · simp only [Memory.erase, h, if_true, ih, Memory.get]
      split
      · rfl
      · next hb => rw [if_neg (fun e => hb e.symm)]
    · simp only [Memory.erase, h, if_false, Memory.get, ih]
      by_cases hb : c.1 = b
      · have : b ≠ a := fun e => h (hb.trans e)
        simp [hb, this]
      · simp [hb]

theorem Memory.get_insert (m : Memory) (a b : Nat) (v : Byte) (h : ∀ c ∈ m, c.1 ≠ a) :
    (m.insert a v).get b = if b = a then v else m.get b := by
  induction m with
  | nil =>
    simp only [Memory.insert, Memory.get, eq_comm (a := a)]
  | cons c m ih =>
    have hc := h c (by simp)
    have ih := ih (fun d hd => h d (by simp [hd]))
    simp only [Memory.insert]
    split
    · simp only [Memory.get, eq_comm (a := a)]
    · simp only [Memory.get, ih]
      by_cases hb : c.1 = b
      · have : b ≠ a := fun e => hc (hb.trans e)
        simp [hb, this]
      · simp [hb]

theorem Memory.erase_ne (m : Memory) (a : Nat) : ∀ c ∈ m.erase a, c.1 ≠ a := by
  induction m with
  | nil => simp [Memory.erase]
  | cons c m ih =>
    by_cases h : c.1 = a
    · simpa [Memory.erase, h] using ih
    · simp only [Memory.erase, h, if_false, List.mem_cons]
      rintro d (rfl | hd)
      · exact h
      · exact ih d hd

/-- A write is seen at its address and nowhere else. -/
theorem Memory.get_set (m : Memory) (a b : Nat) (v : Byte) : (m.set a v).get b = if b = a then v else m.get b := by
  unfold Memory.set
  split
  · next h => rw [Memory.get_erase, h]
  · rw [Memory.get_insert _ _ _ _ (Memory.erase_ne m a), Memory.get_erase]
    split <;> simp_all

@[simp] theorem State.readByte_writeByte (s : State) (a b : Nat) (v : Byte) :
    (s.writeByte a v).readByte b = if b = a then v else s.readByte b :=
  Memory.get_set s.mem a b v

/-- What a word store does to each byte of memory. -/
theorem State.readByte_writeWord (s : State) (addr v : Word) (b : Nat) :
    (s.writeWord addr v).readByte b =
      if b = addr.toNat + 3 then v.extractLsb' 24 8 else if b = addr.toNat + 2 then v.extractLsb' 16 8
      else if b = addr.toNat + 1 then v.extractLsb' 8 8 else if b = addr.toNat then v.extractLsb' 0 8
      else s.readByte b := by
  simp [State.writeWord]

/-! ### The canonical form -/

theorem Memory.erase_sublist (m : Memory) (a : Nat) : (m.erase a).Sublist m := by
  induction m with
  | nil => exact .slnil
  | cons c m ih =>
    by_cases h : c.1 = a
    · simpa [Memory.erase, h] using ih.cons c
    · simpa [Memory.erase, h] using ih.cons_cons c

theorem Memory.wf_erase {m : Memory} (h : m.wf) (a : Nat) : (m.erase a).wf :=
  ⟨h.1.sublist (Memory.erase_sublist m a), fun c hc => h.2 c ((Memory.erase_sublist m a).subset hc)⟩

theorem Memory.mem_insert {m : Memory} {a : Nat} {v : Byte} {c : Host.Cell} :
    c ∈ m.insert a v ↔ c = (a, v) ∨ c ∈ m := by
  induction m with
  | nil => simp [Memory.insert]
  | cons d m ih =>
    simp only [Memory.insert]
    split
    · simp
    · simp only [List.mem_cons, ih]; tauto

theorem Memory.wf_insert {m : Memory} (h : m.wf) {a : Nat} {v : Byte} (ha : a < Config.memSize)
    (hv : v ≠ Memory.unlisted) (hne : ∀ c ∈ m, c.1 ≠ a) : (m.insert a v).wf := by
  refine ⟨?_, fun c hc => ?_⟩
  · obtain ⟨hs, -⟩ := h
    induction m with
    | nil => simp [Memory.insert]
    | cons d m ih =>
      have hd := hne d (by simp)
      obtain ⟨hdm, hm⟩ := List.pairwise_cons.1 hs
      simp only [Memory.insert]
      split
      · next hlt =>
        refine List.pairwise_cons.2 ⟨fun e he => ?_, hs⟩
        rcases List.mem_cons.1 he with rfl | he
        · exact hlt
        · exact Nat.lt_trans hlt (hdm e he)
      · next hlt =>
        refine List.pairwise_cons.2 ⟨fun e he => ?_, ih (fun c hc => hne c (by simp [hc])) hm⟩
        rcases Memory.mem_insert.1 he with rfl | he
        · show d.1 < a
          omega
        · exact hdm e he
  · rcases Memory.mem_insert.1 hc with rfl | hc
    · exact ⟨ha, hv⟩
    · exact h.2 c hc

/-- A write inside the address space keeps the canonical form. -/
theorem Memory.wf_set {m : Memory} (h : m.wf) {a : Nat} (ha : a < Config.memSize) (v : Byte) : (m.set a v).wf := by
  unfold Memory.set
  split
  · exact Memory.wf_erase h a
  · next hv => exact Memory.wf_insert (Memory.wf_erase h a) ha hv (Memory.erase_ne m a)

theorem Memory.wf_setBytes (bs : List Byte) {m : Memory} (h : m.wf) {a : Nat}
    (ha : a + bs.length ≤ Config.memSize) : (m.setBytes a bs).wf := by
  induction bs generalizing m a with
  | nil => exact h
  | cons b bs ih =>
    simp only [List.length_cons] at ha
    exact ih (Memory.wf_set h (by omega) b) (by omega)

theorem inRange_iff (addr : Word) : inRange addr = true ↔ addr.toNat + 4 ≤ 4294967296 := by
  simp [inRange, Config.accessBytes, Config.memSize]

/-- A word store in range keeps the canonical form. -/
theorem State.wf_writeWord {s : State} (h : s.mem.wf) {addr : Word} (ha : inRange addr = true) (v : Word) :
    (s.writeWord addr v).mem.wf := by
  rw [inRange_iff] at ha
  have hs : Config.memSize = 4294967296 := rfl
  exact Memory.wf_set (Memory.wf_set (Memory.wf_set (Memory.wf_set h (by omega) _) (by omega) _) (by omega) _)
    (by omega) _

/-- A multiple store whose words are all in range keeps the canonical form. -/
theorem State.wf_writeWords (ws : List (Word × Word)) {s : State} (h : s.mem.wf)
    (hr : ∀ w ∈ ws, inRange w.1 = true) : (s.writeWords ws).mem.wf := by
  induction ws generalizing s with
  | nil => exact h
  | cons w ws ih =>
    exact ih (State.wf_writeWord h (hr w (by simp)) w.2) (fun u hu => hr u (by simp [hu]))

/-- The memory of the reset state is canonical. -/
theorem reset_mem_wf : State.reset.mem.wf := by decide

/-- Placing an instruction keeps the canonical form. -/
theorem placeAtPc_wf {s : State} (h : s.mem.wf) (nbits w : Nat) : (s.placeAtPc nbits w).mem.wf := by
  unfold State.placeAtPc
  split
  · next hr =>
    rw [inRange_iff] at hr
    have : (tableBytes nbits w).length = 4 := rfl
    exact Memory.wf_setBytes _ h (by rw [this]; exact hr)
  · exact h

/-- The reset sequence keeps the canonical form of the open parameter `MEM_INIT`. -/
theorem boot_wf {p : OpenParams} (h : p.memInit.wf) (b : BootPort) : (boot p b).mem.wf := by
  unfold boot
  split
  · next hr =>
    simp only [State.writeReg_mem]
    exact Memory.wf_setBytes _ h (by simpa [bootInRange] using hr)
  · exact h

/-- `State.reset` is the reset sequence with every open parameter 0 and an empty boot port. -/
theorem boot_default : boot OpenParams.zero BootPort.empty = State.reset := by decide

end Sys2Proof.Machine
end

