-- ==== Sys2Proof/Laws/Ops.lean ====
section
/-! SUPPORT. For each shared operation, once, what it can do. -/

namespace Sys2Proof.Machine

/-- The one state a halt enters. -/
theorem raise_next {c : HaltCause} {s t : State} (h : raise c s = .next t) :
    t = { s with branchTaken := false, run := .halted c } := by
  simp only [raise, Host.Outcome.next.injEq] at h
  exact h.symm

/-- A halt writes nothing of the instruction: only the run state and `branch_taken` differ. -/
theorem raise_frame {c : HaltCause} {s t : State} (h : raise c s = .next t) :
    t.regs = s.regs ∧ t.flags = s.flags ∧ t.special = s.special ∧ t.mem = s.mem ∧ t.branchTaken = false ∧
      t.run = .halted c := by
  rw [raise_next h]
  exact ⟨rfl, rfl, rfl, rfl, rfl, rfl⟩

/-- What a tick that runs a handler leaves in each field and register, in terms of the handler's result. -/
theorem execute_next {w : Word} {f : State → State} {s t : State} (h : execute w f s = .next t) :
    t.flags = (f { s with branchTaken := false }).flags ∧ t.special = (f { s with branchTaken := false }).special ∧
      t.mem = (f { s with branchTaken := false }).mem ∧ t.run = (f { s with branchTaken := false }).run ∧
      t.branchTaken = (f { s with branchTaken := false }).branchTaken ∧
      ∀ i, t.stored i = if i = pcIndex ∧ (f { s with branchTaken := false }).branchTaken = false
        then (f { s with branchTaken := false }).pc + w else (f { s with branchTaken := false }).stored i := by
  simp only [execute, Host.Outcome.next.injEq] at h
  subst h
  exact ⟨by simp, by simp, by simp, by simp, by simp, fun i => State.stored_advance _ w i⟩

/-- An access out of range halts; one in range is the act. -/
theorem access_cases (addr : Word) (act : Host.Outcome State Fault Refusal) (s : State) :
    (inRange addr = true ∧ access addr act s = act) ∨
      (inRange addr = false ∧ access addr act s = raise (.boundsViolation addr) s) := by
  unfold access
  cases h : inRange addr <;> simp

/-- `0xFFFFFFFC` is the last address of an access in range. -/
theorem inRange_eq_false_iff (addr : Word) : inRange addr = false ↔ 4294967292 < addr.toNat := by
  rw [← Bool.not_eq_true, inRange_iff]
  omega

theorem literalAddress_inRange (s : State) (imm32 : Word) (h : imm32.setWidth 2 = 0#2) :
    inRange (literalAddress s imm32) = true := by
  have hi : imm32.toNat % 4 = 0 := by simpa [BitVec.toNat_eq] using h
  have ha : (align4 (s.readReg pcIndex)).toNat % 4 = 0 := by
    have h2 : (align4 (s.readReg pcIndex)).setWidth 2 = 0#2 := by
      rw [align4, BitVec.setWidth_and, show (0xFFFFFFFC#32 : Word).setWidth 2 = 0#2 by decide, BitVec.and_zero]
    simpa [BitVec.toNat_eq] using h2
  rw [inRange_iff]
  simp only [literalAddress, BitVec.toNat_add]
  omega

/-! ### Register lists and multiple stores -/

/-- A plan has one word per listed register, at addresses rising by 4, each with the register's value. -/
theorem storePlan_eq_map (s : State) (start : Word) (is : List (BitVec 4)) :
    storePlan s start is =
      is.zipIdx.map fun p => (start + BitVec.ofNat 32 (4 * p.2), s.readReg p.1) := by
  suffices h : ∀ (n : Nat) (a : Word), storePlan s (a + BitVec.ofNat 32 (4 * n)) is =
      (is.zipIdx n).map fun p => (a + BitVec.ofNat 32 (4 * p.2), s.readReg p.1) by
    simpa using h 0 start
  induction is with
  | nil => intro n a; rfl
  | cons i is ih =>
    intro n a
    have e : a + BitVec.ofNat 32 (4 * n) + 4#32 = a + BitVec.ofNat 32 (4 * (n + 1)) := by
      rw [BitVec.add_assoc, Nat.mul_add, BitVec.ofNat_add]
    simp [storePlan, e, ih]

@[simp] theorem storePlan_length (s : State) (start : Word) (is : List (BitVec 4)) :
    (storePlan s start is).length = is.length := by
  simp [storePlan_eq_map]

@[simp] theorem storePlan_clear (s : State) (b : Bool) (start : Word) (is : List (BitVec 4)) :
    storePlan { s with branchTaken := b } start is = storePlan s start is := by
  simp [storePlan_eq_map]

/-- At most 16 registers are listed. -/
theorem listCount_le (registers : BitVec 16) : listCount registers ≤ 16 := by
  unfold listCount listed
  rw [List.length_map]
  exact (List.length_filter_le _ _).trans (by simp)

/-- Which registers a list names. -/
theorem mem_listed (registers : BitVec 16) (i : BitVec 4) : i ∈ listed registers ↔ registers.getLsbD i.toNat = true := by
  simp only [listed, List.mem_map, List.mem_filter, List.mem_range]
  constructor
  · rintro ⟨k, ⟨hk, hb⟩, rfl⟩
    simpa [Nat.mod_eq_of_lt hk] using hb
  · intro h
    exact ⟨i.toNat, ⟨i.isLt, h⟩, by simp⟩

/-- No word of a plan is refused exactly when every word is in range. -/
theorem firstOutOfRange_eq_none (plan : List (Word × Word)) :
    firstOutOfRange plan = none ↔ ∀ w ∈ plan, inRange w.1 = true := by
  simp [firstOutOfRange, List.find?_eq_none]

/-- The address a refused multiple store records is one of its words', out of range. -/
theorem firstOutOfRange_eq_some {plan : List (Word × Word)} {a : Word} (h : firstOutOfRange plan = some a) :
    inRange a = false ∧ ∃ w ∈ plan, w.1 = a := by
  simp only [firstOutOfRange, Option.map_eq_some_iff] at h
  obtain ⟨w, hw, rfl⟩ := h
  exact ⟨by simpa using List.find?_some hw, w, List.mem_of_find?_eq_some hw, rfl⟩

/-- A multiple store either halts with the first word out of range, or has every word in range and runs. -/
theorem storeMultiple_cases (start : Word) (registers : BitVec 16) (base : BitVec 4) (newBase : Word) (s : State) :
    (∃ a, firstOutOfRange (storePlan s start (listed registers)) = some a ∧
        storeMultiple start registers base newBase s = raise (.boundsViolation a) s) ∨
      ((∀ w ∈ storePlan s start (listed registers), inRange w.1 = true) ∧
        storeMultiple start registers base newBase s = execute shortForm
          (fun t => (t.writeWords (storePlan t start (listed registers))).writeReg base newBase) s) := by
  unfold storeMultiple
  cases h : firstOutOfRange (storePlan s start (listed registers)) with
  | some a => exact .inl ⟨a, rfl, rfl⟩
  | none => exact .inr ⟨(firstOutOfRange_eq_none _).1 h, rfl⟩

/-- A byte that none of the words covers is unchanged by storing them. -/
theorem State.readByte_writeWords_of_outside (ws : List (Word × Word)) (s : State) (b : Nat)
    (h : ∀ w ∈ ws, b < w.1.toNat ∨ w.1.toNat + 4 ≤ b) : (s.writeWords ws).readByte b = s.readByte b := by
  induction ws generalizing s with
  | nil => rfl
  | cons w ws ih =>
    have hw := h w (by simp)
    rw [State.writeWords, ih _ (fun u hu => h u (by simp [hu])), State.readByte_writeWord]
    rw [if_neg (by omega), if_neg (by omega), if_neg (by omega), if_neg (by omega)]

/-- A halted block's step: unchanged after `PROGRAM_END`, a fault after a fatal cause. -/
theorem haltedStep_cases (c : HaltCause) (s : State) :
    (c = .programEnd ∧ haltedStep c s = .next s) ∨ (c ≠ .programEnd ∧ haltedStep c s = .fault (.halted c)) := by
  cases c <;> simp [haltedStep]

end Sys2Proof.Machine
end

