-- ==== Sys2Proof/Laws/Exec.lean ====
section
/-! SUPPORT. Inversion: what an instruction, and what a step, can do. -/

namespace Sys2Proof.Machine

/-- A handler that neither halts the block nor touches a special register, and keeps memory canonical. -/
structure Tame (f : State → State) (s : State) : Prop where
  run : (f { s with branchTaken := false }).run = s.run
  special : (f { s with branchTaken := false }).special = s.special
  mem : s.mem.wf → (f { s with branchTaken := false }).mem.wf

theorem tame_of_mem_eq {f : State → State} {s : State} (hr : (f { s with branchTaken := false }).run = s.run)
    (hs : (f { s with branchTaken := false }).special = s.special)
    (hm : (f { s with branchTaken := false }).mem = s.mem) : Tame f s :=
  ⟨hr, hs, fun h => by rw [hm]; exact h⟩

/-- What a multiple store can do. -/
theorem storeMultiple_tame (start : Word) (registers : BitVec 16) (base : BitVec 4) (newBase : Word) (s : State) :
    (∃ c, storeMultiple start registers base newBase s = raise c s) ∨
      (∃ f, storeMultiple start registers base newBase s = execute shortForm f s ∧ Tame f s) := by
  rcases storeMultiple_cases start registers base newBase s with ⟨a, -, h⟩ | ⟨hr, h⟩
  · exact .inl ⟨_, h⟩
  · refine .inr ⟨_, h, by simp, by simp, fun hm => ?_⟩
    simp only [State.writeReg_mem]
    exact State.wf_writeWords _ hm (by simpa using hr)

/-- Every instruction halts the block, or runs one tame handler and advances by its width. -/
theorem exec_cases (i : Instr) (s : State) :
    (∃ c, exec i s = raise c s) ∨
      (∃ f, exec i s = execute (BitVec.ofNat 32 i.width) f s ∧ Tame f s) := by
  cases i with
  | addReg | addImm3 | addImm8 =>
    dsimp only [exec, execAddReg, execAddImm3, execAddImm8]
    exact .inr ⟨_, rfl, tame_of_mem_eq (by simp [State.addInto]) (by simp [State.addInto]) (by simp [State.addInto])⟩
  | movImm | cmpImm | cmpReg | mvns | movReg | bx | addSp | subSp | b | bl | mrs =>
    dsimp only [exec, execMovImm, execCmpImm, execCmpReg, execMvns, execMovReg, execBx, execAddSp, execSubSp, execB,
      execBl, execMrs]
    exact .inr ⟨_, rfl, tame_of_mem_eq (by simp) (by simp) (by simp)⟩
  | ands | eors | lsls | lsrs | asrs | adcs | sbcs | rors | tst | rsbs | cmn | orrs | muls | bics | bkpt | ldm | msr =>
    exact .inl ⟨_, rfl⟩
  | bCond =>
    dsimp only [exec, execBCond]
    exact .inr ⟨_, rfl, tame_of_mem_eq (by simp only; split <;> simp) (by simp only; split <;> simp)
      (by simp only; split <;> simp)⟩
  | ldrLit rt imm32 =>
    rcases access_cases (literalAddress s imm32)
      (execute shortForm (fun t => t.writeReg (low rt) (t.readWord (literalAddress t imm32))) s) s with ⟨-, h⟩ | ⟨-, h⟩
    · exact .inr ⟨_, h, tame_of_mem_eq (by simp) (by simp) (by simp)⟩
    · exact .inl ⟨_, h⟩
  | strSp rt imm32 =>
    rcases access_cases (stackAddress s imm32)
      (execute shortForm (fun t => t.writeWord (stackAddress t imm32) (t.readReg (low rt))) s) s with ⟨hr, h⟩ | ⟨-, h⟩
    · exact .inr ⟨_, h, by simp, by simp, fun hm => State.wf_writeWord (s := { s with branchTaken := false }) hm hr _⟩
    · exact .inl ⟨_, h⟩
  | push registers => exact storeMultiple_tame _ _ _ _ s
  | stm rn registers =>
    show (∃ c, execStm rn registers s = raise c s) ∨ _
    show _ ∨ (∃ f, execStm rn registers s = execute shortForm f s ∧ Tame f s)
    unfold execStm
    split
    · exact .inl ⟨_, rfl⟩
    · exact storeMultiple_tame _ _ _ _ s

/-- A step: a halted block makes no tick; a fetch that fails halts; else the fetched instruction runs. -/
theorem step_cases (s : State) :
    (∃ c, s.run = .halted c ∧ step s = haltedStep c s) ∨
      (s.run = .running ∧ ∃ c, s.fetch = .error c ∧ step s = raise c s) ∨
      (s.run = .running ∧ ∃ i, s.fetch = .ok i ∧ step s = exec i s) := by
  unfold step
  cases hr : s.run with
  | halted c => exact .inl ⟨c, rfl, rfl⟩
  | running =>
    cases hf : s.fetch with
    | error c => exact .inr (.inl ⟨rfl, c, rfl, rfl⟩)
    | ok i => exact .inr (.inr ⟨rfl, i, rfl, rfl⟩)

/-- What a fetch can answer. -/
theorem decodeAt_cases (s : State) (addr : Word) :
    (inRange addr = false ∧ s.decodeAt addr = .error (.boundsViolation addr)) ∨
      (inRange addr = true ∧ decodeHalves (s.readHalf addr.toNat) (s.readHalf (addr.toNat + 2)) = none ∧
        s.decodeAt addr = .error .illegalEncoding) ∨
      (inRange addr = true ∧ ∃ i, decodeHalves (s.readHalf addr.toNat) (s.readHalf (addr.toNat + 2)) = some i ∧
        s.decodeAt addr = .ok i) := by
  unfold State.decodeAt
  cases hr : inRange addr with
  | false => exact .inl ⟨rfl, rfl⟩
  | true =>
    cases hd : decodeHalves (s.readHalf addr.toNat) (s.readHalf (addr.toNat + 2)) with
    | none => exact .inr (.inl ⟨rfl, rfl, rfl⟩)
    | some i => exact .inr (.inr ⟨rfl, i, rfl, rfl⟩)

end Sys2Proof.Machine
end

