-- ==== Sys2Proof/Laws/PerInstr.lean ====
section
/-! SUPPORT. Statements made per instruction, one lemma per constructor. -/

/-- An encoded record has as many bytes as its width says (spec/30_encoding.md R90, R95). -/
def Sys2Proof.Laws.Width.Statement (i : Sys2Proof.Instr) : Prop := (Sys2Proof.encode i).length = i.width

namespace Sys2Proof.Laws.Width

theorem addReg (rm rn rd : BitVec 3) : Statement (.addReg rm rn rd) := rfl

theorem addImm3 (imm32 : Sys2Proof.Word) (rn rd : BitVec 3) : Statement (.addImm3 imm32 rn rd) := rfl

theorem movImm (rd : BitVec 3) (imm32 : Sys2Proof.Word) : Statement (.movImm rd imm32) := rfl

theorem cmpImm (rn : BitVec 3) (imm32 : Sys2Proof.Word) : Statement (.cmpImm rn imm32) := rfl

theorem addImm8 (rdn : BitVec 3) (imm32 : Sys2Proof.Word) : Statement (.addImm8 rdn imm32) := rfl

theorem ands (rm rdn : BitVec 3) : Statement (.ands rm rdn) := rfl

theorem eors (rm rdn : BitVec 3) : Statement (.eors rm rdn) := rfl

theorem lsls (rm rdn : BitVec 3) : Statement (.lsls rm rdn) := rfl

theorem lsrs (rm rdn : BitVec 3) : Statement (.lsrs rm rdn) := rfl

theorem asrs (rm rdn : BitVec 3) : Statement (.asrs rm rdn) := rfl

theorem adcs (rm rdn : BitVec 3) : Statement (.adcs rm rdn) := rfl

theorem sbcs (rm rdn : BitVec 3) : Statement (.sbcs rm rdn) := rfl

theorem rors (rm rdn : BitVec 3) : Statement (.rors rm rdn) := rfl

theorem tst (rm rdn : BitVec 3) : Statement (.tst rm rdn) := rfl

theorem rsbs (rm rdn : BitVec 3) : Statement (.rsbs rm rdn) := rfl

theorem cmpReg (rm rdn : BitVec 3) : Statement (.cmpReg rm rdn) := rfl

theorem cmn (rm rdn : BitVec 3) : Statement (.cmn rm rdn) := rfl

theorem orrs (rm rdn : BitVec 3) : Statement (.orrs rm rdn) := rfl

theorem muls (rm rdn : BitVec 3) : Statement (.muls rm rdn) := rfl

theorem bics (rm rdn : BitVec 3) : Statement (.bics rm rdn) := rfl

theorem mvns (rm rdn : BitVec 3) : Statement (.mvns rm rdn) := rfl

theorem movReg (rd rm : BitVec 4) : Statement (.movReg rd rm) := rfl

theorem bx (rm : BitVec 4) : Statement (.bx rm) := rfl

theorem ldrLit (rt : BitVec 3) (imm32 : Sys2Proof.Word) : Statement (.ldrLit rt imm32) := rfl

theorem strSp (rt : BitVec 3) (imm32 : Sys2Proof.Word) : Statement (.strSp rt imm32) := rfl

theorem addSp (imm32 : Sys2Proof.Word) : Statement (.addSp imm32) := rfl

theorem subSp (imm32 : Sys2Proof.Word) : Statement (.subSp imm32) := rfl

theorem push (registers : BitVec 16) : Statement (.push registers) := rfl

theorem bkpt (imm8 : BitVec 8) : Statement (.bkpt imm8) := rfl

theorem stm (rn : BitVec 3) (registers : BitVec 16) : Statement (.stm rn registers) := rfl

theorem ldm (rn : BitVec 3) (registers : BitVec 16) : Statement (.ldm rn registers) := rfl

theorem bCond (cond : Sys2Proof.Cond) (imm32 : Sys2Proof.Word) : Statement (.bCond cond imm32) := rfl

theorem b (imm32 : Sys2Proof.Word) : Statement (.b imm32) := rfl

theorem bl (imm32 : Sys2Proof.Word) : Statement (.bl imm32) := rfl

theorem msr (rn : BitVec 4) (sysm : Sys2Proof.SpecialReg) : Statement (.msr rn sysm) := rfl

theorem mrs (rd : BitVec 4) (sysm : Sys2Proof.SpecialReg) : Statement (.mrs rd sysm) := rfl

end Sys2Proof.Laws.Width
end

