-- ==== Sys2Proof/Laws/RunControl.lean ====
section
/-! SUPPORT. What the run loop does in one tick, and what a run with and without a budget is. -/

namespace Sys2Proof.Machine

@[simp] theorem runBudget_zero (s : State) : runBudget 0 s = s := rfl

/-- A block that is HALTED stays as it is, whatever the budget. -/
theorem runBudget_of_halted {s : State} (h : s.run ≠ .running) (k : Nat) : runBudget k s = s := by
  cases k with
  | zero => rfl
  | succ k =>
    cases hr : s.run with
    | running => exact absurd hr h
    | halted c => simp only [runBudget, hr]

/-- The loop makes one tick and goes on with one less. -/
theorem runBudget_succ_of_next {s t : State} (h : s.run = .running) (ht : step s = .next t) (k : Nat) :
    runBudget (k + 1) s = runBudget k t := by
  simp only [runBudget, h, ht]

@[simp] theorem runsTo_some (k : Nat) (s t : State) : RunsTo (some k) s t ↔ t = runBudget k s := Iff.rfl

@[simp] theorem runsTo_none (s t : State) : RunsTo none s t ↔ t.run ≠ .running ∧ ∃ k, t = runBudget k s := Iff.rfl

/-- A run with a budget is safe when the state it stops in is no failure. -/
theorem safeRun_some (k : Nat) (s : State) : SafeRun (some k) s ↔ ¬ (runBudget k s).failed := by
  simp [SafeRun]

end Sys2Proof.Machine
end

