-- ==== Sys2Proof/Tests/Slice0.lean ====
section
/-! SUPPORT. Tests: each check of WellFormed refuses an ill-formed record; words written out from the spec decode to what
it says; one step of each instruction against spec/95_test_vectors.md (V numbers); and, for every statement that has
hypotheses, a state and operands that meet them. -/

set_option maxRecDepth 8000

namespace Sys2Proof.Tests

open Sys2Proof Sys2Proof.Machine

/-- The initial state of the vectors: PC 0x100, SP 0x20001000, all else as after reset. -/
def start : State := (State.reset.store 15#4 0x100#32).store 13#4 0x20001000#32

/-- Registers set. -/
def withRegs (s : State) (rs : List (BitVec 4 × Word)) : State := rs.foldl (fun t r => t.store r.1 r.2) s

/-- The two words of V76b around a misaligned store. -/
def withBoundary (s : State) : State :=
  (s.writeWord 0x20000000#32 0xAAAAAAAA#32).writeWord 0x20000004#32 0xBBBBBBBB#32

/-- The four flags set, as the vectors write them: N, Z, C, V. -/
def withFlags (s : State) (f : BitVec 4) : State :=
  { s with flags := { n := f.getLsbD 3, z := f.getLsbD 2, c := f.getLsbD 1, v := f.getLsbD 0 } }

/-- The flags as the vectors write them. -/
def nzcv (s : State) : BitVec 4 :=
  BitVec.ofBool s.flags.n ++ BitVec.ofBool s.flags.z ++ BitVec.ofBool s.flags.c ++ BitVec.ofBool s.flags.v

/-- The next state passes the check. -/
def nextIs (o : Host.Outcome State Fault Refusal) (check : State → Bool) : Bool :=
  match o with
  | .next t => check t
  | .fault _ => false
  | .refused _ => false

/-- The outcome is the halt with this cause and nothing else of the state changed. -/
def haltsAs (cause : HaltCause) (s : State) (o : Host.Outcome State Fault Refusal) : Bool :=
  nextIs o fun t => t == { s with run := .halted cause }

/-- One tick of the state with a word of the opcode table's numbering at its PC. -/
def tick (s : State) (nbits w : Nat) : Host.Outcome State Fault Refusal := step (s.withFetchWord nbits w)

/-! ### WellFormed refuses -/

/-- R97: 0 to 7. -/
theorem test_wf_refuses_immediate3_too_wide : Instr.wf (.addImm3 8#32 0#3 0#3) = false := by decide

/-- R97: 0 to 255. -/
theorem test_wf_refuses_mov_immediate_too_wide : Instr.wf (.movImm 0#3 256#32) = false := by decide

/-- R97: 0 to 255. -/
theorem test_wf_refuses_cmp_immediate_too_wide : Instr.wf (.cmpImm 0#3 0xFFFFFFFF#32) = false := by decide

/-- R97: 0 to 255. -/
theorem test_wf_refuses_add_immediate8_too_wide : Instr.wf (.addImm8 0#3 256#32) = false := by decide

/-- R97: 0 to 1020. -/
theorem test_wf_refuses_literal_offset_too_wide : Instr.wf (.ldrLit 0#3 1024#32) = false := by decide

/-- R97: a multiple of 4. -/
theorem test_wf_refuses_literal_offset_unscaled : Instr.wf (.ldrLit 0#3 2#32) = false := by decide

/-- R97: 0 to 1020. -/
theorem test_wf_refuses_store_offset_too_wide : Instr.wf (.strSp 0#3 1024#32) = false := by decide

/-- R97: a multiple of 4. -/
theorem test_wf_refuses_store_offset_unscaled : Instr.wf (.strSp 0#3 1#32) = false := by decide

/-- R97: 0 to 508. -/
theorem test_wf_refuses_add_sp_too_wide : Instr.wf (.addSp 512#32) = false := by decide

/-- R97: a multiple of 4. -/
theorem test_wf_refuses_add_sp_unscaled : Instr.wf (.addSp 6#32) = false := by decide

/-- R97: 0 to 508. -/
theorem test_wf_refuses_sub_sp_too_wide : Instr.wf (.subSp 512#32) = false := by decide

/-- R97: a multiple of 4. -/
theorem test_wf_refuses_sub_sp_unscaled : Instr.wf (.subSp 6#32) = false := by decide

/-- R98: R0 to R7 and LR. -/
theorem test_wf_refuses_push_of_sp : Instr.wf (.push 0x2000#16) = false := by decide

/-- R98: R0 to R7. -/
theorem test_wf_refuses_stm_of_high_register : Instr.wf (.stm 0#3 0x0100#16) = false := by decide

/-- R98: R0 to R7. -/
theorem test_wf_refuses_ldm_of_high_register : Instr.wf (.ldm 0#3 0x8000#16) = false := by decide

/-- R99: 14 is no condition of B cond. -/
theorem test_wf_refuses_branch_always_condition : Instr.wf (.bCond .al 0#32) = false := by decide

/-- R97: -256 to 254. -/
theorem test_wf_refuses_conditional_offset_too_far : Instr.wf (.bCond .eq 256#32) = false := by decide

/-- R97: even. -/
theorem test_wf_refuses_conditional_offset_odd : Instr.wf (.bCond .eq 3#32) = false := by decide

/-- R97: -2048 to 2046. -/
theorem test_wf_refuses_branch_offset_too_far : Instr.wf (.b 2048#32) = false := by decide

/-- R97: even. -/
theorem test_wf_refuses_branch_offset_odd : Instr.wf (.b 0xFFFFFFFF#32) = false := by decide

/-- R97: up to 16777214. -/
theorem test_wf_refuses_link_offset_too_far : Instr.wf (.bl 0x01000000#32) = false := by decide

/-- R97: even. -/
theorem test_wf_refuses_link_offset_odd : Instr.wf (.bl 1#32) = false := by decide

/-! ### Words written out from the spec's encodings -/

/-- V40a: `0001100 010 001 000`. -/
theorem test_decode_add_register : decode [0x88#8, 0x18#8] = .ok (.addReg 2#3 1#3 0#3, []) := by decide

/-- V40b: `0001110 111 000 011`. -/
theorem test_decode_add_immediate3 : decode [0xC3#8, 0x1D#8] = .ok (.addImm3 7#32 0#3 3#3, []) := by decide

/-- V40c, scenario B: `00100 000 00001001`. -/
theorem test_decode_mov_immediate : decode [0x09#8, 0x20#8] = .ok (.movImm 0#3 9#32, []) := by decide

/-- V40d, scenario A: `00101 000 00001010`. -/
theorem test_decode_cmp_immediate : decode [0x0A#8, 0x28#8] = .ok (.cmpImm 0#3 10#32, []) := by decide

/-- V40e: `00110 001 11111111`. -/
theorem test_decode_add_immediate8 : decode [0xFF#8, 0x31#8] = .ok (.addImm8 1#3 255#32, []) := by decide

/-- V41a: `01000110 0 0001 000`. -/
theorem test_decode_mov_register : decode [0x08#8, 0x46#8] = .ok (.movReg 0#4 1#4, []) := by decide

/-- V41b: `01000110 1 1110 111`. -/
theorem test_decode_mov_register_high : decode [0xF7#8, 0x46#8] = .ok (.movReg 15#4 14#4, []) := by decide

/-- V41c, scenario A: `010001110 1110 000`. -/
theorem test_decode_bx : decode [0x70#8, 0x47#8] = .ok (.bx 14#4, []) := by decide

/-- V42a: `01001 000 00000001`. -/
theorem test_decode_ldr_literal : decode [0x01#8, 0x48#8] = .ok (.ldrLit 0#3 4#32, []) := by decide

/-- V42b: `10010 000 00000001`. -/
theorem test_decode_str_sp : decode [0x01#8, 0x90#8] = .ok (.strSp 0#3 4#32, []) := by decide

/-- V42c: `101100000 0000010`. -/
theorem test_decode_add_sp : decode [0x02#8, 0xB0#8] = .ok (.addSp 8#32, []) := by decide

/-- V42d: `101100001 0000010`. -/
theorem test_decode_sub_sp : decode [0x82#8, 0xB0#8] = .ok (.subSp 8#32, []) := by decide

/-- V42e: `1011010 1 00000011`. -/
theorem test_decode_push : decode [0x03#8, 0xB5#8] = .ok (.push 0x4003#16, []) := by decide

/-- V42f: `10111110 10101011`. -/
theorem test_decode_bkpt : decode [0xAB#8, 0xBE#8] = .ok (.bkpt 0xAB#8, []) := by decide

/-- V43a: `11000 011 00000011`. -/
theorem test_decode_stm : decode [0x03#8, 0xC3#8] = .ok (.stm 3#3 0x0003#16, []) := by decide

/-- V43b: `11001 000 00000011`. -/
theorem test_decode_ldm : decode [0x03#8, 0xC8#8] = .ok (.ldm 0#3 0x0003#16, []) := by decide

/-- V44a, scenario A: `1101 1000 00000010`. -/
theorem test_decode_branch_hi : decode [0x02#8, 0xD8#8] = .ok (.bCond .hi 4#32, []) := by decide

/-- V44b: `1101 0001 11111011`, -10. -/
theorem test_decode_branch_ne_backward : decode [0xFB#8, 0xD1#8] = .ok (.bCond .ne 0xFFFFFFF6#32, []) := by decide

/-- V44c: `11100 11111111110`, -4. -/
theorem test_decode_branch_backward : decode [0xFE#8, 0xE7#8] = .ok (.b 0xFFFFFFFC#32, []) := by decide

/-- V45a. -/
theorem test_decode_bl : decode [0x00#8, 0xF0#8, 0x04#8, 0xF8#8] = .ok (.bl 8#32, []) := by decide

/-- V45c: +16777214. -/
theorem test_decode_bl_largest : decode [0xFF#8, 0xF3#8, 0xFF#8, 0xD7#8] = .ok (.bl 0x00FFFFFE#32, []) := by decide

/-- V45d: -16777216. -/
theorem test_decode_bl_smallest : decode [0x00#8, 0xF4#8, 0x00#8, 0xD0#8] = .ok (.bl 0xFF000000#32, []) := by decide

/-- V45f: J1 = 1, J2 = 0 under S = 0. -/
theorem test_decode_bl_only_i2 : decode [0xFF#8, 0xF3#8, 0xFF#8, 0xF7#8] = .ok (.bl 0x007FFFFE#32, []) := by decide

/-- V46a: `1000 0010 00001000`. -/
theorem test_decode_mrs : decode [0xEF#8, 0xF3#8, 0x08#8, 0x82#8] = .ok (.mrs 2#4 .msp, []) := by decide

/-- V46b: `111100111000 0001`, `10001000 00001001`. -/
theorem test_decode_msr : decode [0x81#8, 0xF3#8, 0x09#8, 0x88#8] = .ok (.msr 1#4 .psp, []) := by decide

/-- V47: `010000 0000 101 010`. -/
theorem test_decode_dp_ands : decode [0x2A#8, 0x40#8] = .ok (.ands 5#3 2#3, []) := by decide

/-- V47: `010000 0001 101 010`. -/
theorem test_decode_dp_eors : decode [0x6A#8, 0x40#8] = .ok (.eors 5#3 2#3, []) := by decide

/-- V47: `010000 0010 101 010`. -/
theorem test_decode_dp_lsls : decode [0xAA#8, 0x40#8] = .ok (.lsls 5#3 2#3, []) := by decide

/-- V47: `010000 0011 101 010`. -/
theorem test_decode_dp_lsrs : decode [0xEA#8, 0x40#8] = .ok (.lsrs 5#3 2#3, []) := by decide

/-- V47: `010000 0100 101 010`. -/
theorem test_decode_dp_asrs : decode [0x2A#8, 0x41#8] = .ok (.asrs 5#3 2#3, []) := by decide

/-- V47: `010000 0101 101 010`. -/
theorem test_decode_dp_adcs : decode [0x6A#8, 0x41#8] = .ok (.adcs 5#3 2#3, []) := by decide

/-- V47: `010000 0110 101 010`. -/
theorem test_decode_dp_sbcs : decode [0xAA#8, 0x41#8] = .ok (.sbcs 5#3 2#3, []) := by decide

/-- V47: `010000 0111 101 010`. -/
theorem test_decode_dp_rors : decode [0xEA#8, 0x41#8] = .ok (.rors 5#3 2#3, []) := by decide

/-- V47: `010000 1000 101 010`. -/
theorem test_decode_dp_tst : decode [0x2A#8, 0x42#8] = .ok (.tst 5#3 2#3, []) := by decide

/-- V47: `010000 1001 101 010`. -/
theorem test_decode_dp_rsbs : decode [0x6A#8, 0x42#8] = .ok (.rsbs 5#3 2#3, []) := by decide

/-- V47: `010000 1010 101 010`. -/
theorem test_decode_dp_cmpReg : decode [0xAA#8, 0x42#8] = .ok (.cmpReg 5#3 2#3, []) := by decide

/-- V47: `010000 1011 101 010`. -/
theorem test_decode_dp_cmn : decode [0xEA#8, 0x42#8] = .ok (.cmn 5#3 2#3, []) := by decide

/-- V47: `010000 1100 101 010`. -/
theorem test_decode_dp_orrs : decode [0x2A#8, 0x43#8] = .ok (.orrs 5#3 2#3, []) := by decide

/-- V47: `010000 1101 101 010`. -/
theorem test_decode_dp_muls : decode [0x6A#8, 0x43#8] = .ok (.muls 5#3 2#3, []) := by decide

/-- V47: `010000 1110 101 010`. -/
theorem test_decode_dp_bics : decode [0xAA#8, 0x43#8] = .ok (.bics 5#3 2#3, []) := by decide

/-- V47: `010000 1111 101 010`. -/
theorem test_decode_dp_mvns : decode [0xEA#8, 0x43#8] = .ok (.mvns 5#3 2#3, []) := by decide

/-! ### One step of each instruction -/

/-- V55a. -/
theorem test_mov_immediate_keeps_flags :
    nextIs (tick (withFlags (withRegs start [(0#4, 0xFFFFFFFF#32)]) 0b1111#4) 16 0x2009)
      (fun t => t.stored 0#4 == 0x9#32 && nzcv t == 0b1111#4 && t.pc == 0x102#32) = true := by decide

/-- V55c. -/
theorem test_mov_immediate_zero_sets_no_flag :
    nextIs (tick (withFlags (withRegs start [(0#4, 0x5#32)]) 0b0000#4) 16 0x2000)
      (fun t => t.stored 0#4 == 0x0#32 && nzcv t == 0b0000#4) = true := by decide

/-- V56c. -/
theorem test_cmp_immediate_borrow :
    nextIs (tick (withRegs start [(0#4, 0x9#32)]) 16 0x280A)
      (fun t => t.stored 0#4 == 0x9#32 && nzcv t == 0b1000#4 && t.pc == 0x102#32) = true := by decide

/-- V56d. -/
theorem test_cmp_immediate_overflow :
    nextIs (tick (withRegs start [(0#4, 0x80000000#32)]) 16 0x2801)
      (fun t => nzcv t == 0b0011#4) = true := by decide

/-- V57c. -/
theorem test_mov_register_reads_pc :
    nextIs (tick start 16 0x4678)
      (fun t => t.stored 0#4 == 0x104#32 && t.pc == 0x102#32) = true := by decide

/-- V57e. -/
theorem test_mov_register_to_pc_branches :
    nextIs (tick (withRegs start [(0#4, 0x201#32)]) 16 0x4687)
      (fun t => t.pc == 0x200#32 && t.branchTaken) = true := by decide

/-- V60c. -/
theorem test_add_immediate3_wraps :
    nextIs (tick (withRegs start [(2#4, 0xFFFFFFFF#32)]) 16 0x1C52)
      (fun t => t.stored 2#4 == 0x0#32 && nzcv t == 0b0110#4) = true := by decide

/-- V60b. -/
theorem test_add_immediate3_moves_and_sets_flags :
    nextIs (tick (withFlags (withRegs start [(1#4, 0x80000001#32)]) 0b0111#4) 16 0x1C08)
      (fun t => t.stored 0#4 == 0x80000001#32 && nzcv t == 0b1000#4) = true := by decide

/-- V61c. -/
theorem test_add_immediate8_overflows :
    nextIs (tick (withRegs start [(0#4, 0x7FFFFFFF#32)]) 16 0x30FF)
      (fun t => t.stored 0#4 == 0x800000FE#32 && nzcv t == 0b1001#4) = true := by decide

/-- V61b. -/
theorem test_add_immediate8_wraps :
    nextIs (tick (withRegs start [(0#4, 0xFFFFFF01#32)]) 16 0x30FF)
      (fun t => t.stored 0#4 == 0x0#32 && nzcv t == 0b0110#4) = true := by decide

/-- V62b. -/
theorem test_add_register_all_flags :
    nextIs (tick (withRegs start [(0#4, 0x80000000#32), (1#4, 0x80000000#32)]) 16 0x1842)
      (fun t => t.stored 2#4 == 0x0#32 && nzcv t == 0b0111#4) = true := by decide

/-- V62d. -/
theorem test_add_register_doubles_in_place :
    nextIs (tick (withRegs start [(0#4, 0xC0000000#32)]) 16 0x1800)
      (fun t => t.stored 0#4 == 0x80000000#32 && nzcv t == 0b1010#4) = true := by decide

/-- V63b. -/
theorem test_add_sp_wraps_without_flags :
    nextIs (tick (withRegs start [(13#4, 0xFFFFFFFC#32)]) 16 0xB07F)
      (fun t => t.stored 13#4 == 0x1F8#32 && nzcv t == 0b0000#4) = true := by decide

/-- V64a. -/
theorem test_sub_sp_keeps_flags :
    nextIs (tick (withFlags start 0b1111#4) 16 0xB082)
      (fun t => t.stored 13#4 == 0x20000FF8#32 && nzcv t == 0b1111#4) = true := by decide

/-- V64b. -/
theorem test_sub_sp_wraps :
    nextIs (tick (withRegs start [(13#4, 0x4#32)]) 16 0xB082)
      (fun t => t.stored 13#4 == 0xFFFFFFFC#32) = true := by decide

/-- V65e. -/
theorem test_cmp_register_overflow :
    nextIs (tick (withRegs start [(0#4, 0x7FFFFFFF#32), (1#4, 0xFFFFFFFF#32)]) 16 0x4288)
      (fun t => nzcv t == 0b1001#4 && t.pc == 0x102#32) = true := by decide

/-- V65h. -/
theorem test_cmp_register_operand_order :
    nextIs (tick (withRegs start [(0#4, 0x1#32), (1#4, 0xFFFFFFFF#32)]) 16 0x4288)
      (fun t => nzcv t == 0b0000#4) = true := by decide

/-- V66b. -/
theorem test_mvn_clears_carry_keeps_overflow :
    nextIs (tick (withFlags (withRegs start [(1#4, 0x0#32)]) 0b0111#4) 16 0x43C9)
      (fun t => t.stored 1#4 == 0xFFFFFFFF#32 && nzcv t == 0b1001#4) = true := by decide

/-- V66c. -/
theorem test_mvn_zero :
    nextIs (tick (withFlags (withRegs start [(0#4, 0x7#32), (1#4, 0xFFFFFFFF#32)]) 0b1011#4) 16 0x43C8)
      (fun t => t.stored 0#4 == 0x0#32 && nzcv t == 0b0101#4) = true := by decide

/-- V67. -/
theorem test_ands_halts :
    haltsAs (.notImplemented) ((withRegs start [(0#4, 0x6#32), (1#4, 0x3#32)]).withFetchWord 16 0x4008)
      (tick (withRegs start [(0#4, 0x6#32), (1#4, 0x3#32)]) 16 0x4008) = true := by decide

/-- V67. -/
theorem test_eors_halts :
    haltsAs (.notImplemented) ((withRegs start [(0#4, 0x6#32), (1#4, 0x3#32)]).withFetchWord 16 0x4048)
      (tick (withRegs start [(0#4, 0x6#32), (1#4, 0x3#32)]) 16 0x4048) = true := by decide

/-- V67. -/
theorem test_lsls_halts :
    haltsAs (.notImplemented) ((withRegs start [(0#4, 0x6#32), (1#4, 0x3#32)]).withFetchWord 16 0x4088)
      (tick (withRegs start [(0#4, 0x6#32), (1#4, 0x3#32)]) 16 0x4088) = true := by decide

/-- V67. -/
theorem test_lsrs_halts :
    haltsAs (.notImplemented) ((withRegs start [(0#4, 0x6#32), (1#4, 0x3#32)]).withFetchWord 16 0x40C8)
      (tick (withRegs start [(0#4, 0x6#32), (1#4, 0x3#32)]) 16 0x40C8) = true := by decide

/-- V67. -/
theorem test_asrs_halts :
    haltsAs (.notImplemented) ((withRegs start [(0#4, 0x6#32), (1#4, 0x3#32)]).withFetchWord 16 0x4108)
      (tick (withRegs start [(0#4, 0x6#32), (1#4, 0x3#32)]) 16 0x4108) = true := by decide

/-- V67. -/
theorem test_adcs_halts :
    haltsAs (.notImplemented) ((withRegs start [(0#4, 0x6#32), (1#4, 0x3#32)]).withFetchWord 16 0x4148)
      (tick (withRegs start [(0#4, 0x6#32), (1#4, 0x3#32)]) 16 0x4148) = true := by decide

/-- V67. -/
theorem test_sbcs_halts :
    haltsAs (.notImplemented) ((withRegs start [(0#4, 0x6#32), (1#4, 0x3#32)]).withFetchWord 16 0x4188)
      (tick (withRegs start [(0#4, 0x6#32), (1#4, 0x3#32)]) 16 0x4188) = true := by decide

/-- V67. -/
theorem test_rors_halts :
    haltsAs (.notImplemented) ((withRegs start [(0#4, 0x6#32), (1#4, 0x3#32)]).withFetchWord 16 0x41C8)
      (tick (withRegs start [(0#4, 0x6#32), (1#4, 0x3#32)]) 16 0x41C8) = true := by decide

/-- V67. -/
theorem test_tst_halts :
    haltsAs (.notImplemented) ((withRegs start [(0#4, 0x6#32), (1#4, 0x3#32)]).withFetchWord 16 0x4208)
      (tick (withRegs start [(0#4, 0x6#32), (1#4, 0x3#32)]) 16 0x4208) = true := by decide

/-- V67. -/
theorem test_rsbs_halts :
    haltsAs (.notImplemented) ((withRegs start [(0#4, 0x6#32), (1#4, 0x3#32)]).withFetchWord 16 0x4248)
      (tick (withRegs start [(0#4, 0x6#32), (1#4, 0x3#32)]) 16 0x4248) = true := by decide

/-- V67. -/
theorem test_cmn_halts :
    haltsAs (.notImplemented) ((withRegs start [(0#4, 0x6#32), (1#4, 0x3#32)]).withFetchWord 16 0x42C8)
      (tick (withRegs start [(0#4, 0x6#32), (1#4, 0x3#32)]) 16 0x42C8) = true := by decide

/-- V67. -/
theorem test_orrs_halts :
    haltsAs (.notImplemented) ((withRegs start [(0#4, 0x6#32), (1#4, 0x3#32)]).withFetchWord 16 0x4308)
      (tick (withRegs start [(0#4, 0x6#32), (1#4, 0x3#32)]) 16 0x4308) = true := by decide

/-- V67. -/
theorem test_muls_halts :
    haltsAs (.notImplemented) ((withRegs start [(0#4, 0x6#32), (1#4, 0x3#32)]).withFetchWord 16 0x4348)
      (tick (withRegs start [(0#4, 0x6#32), (1#4, 0x3#32)]) 16 0x4348) = true := by decide

/-- V67. -/
theorem test_bics_halts :
    haltsAs (.notImplemented) ((withRegs start [(0#4, 0x6#32), (1#4, 0x3#32)]).withFetchWord 16 0x4388)
      (tick (withRegs start [(0#4, 0x6#32), (1#4, 0x3#32)]) 16 0x4388) = true := by decide

/-- V70a. -/
theorem test_bl_links_and_branches :
    nextIs (tick start 32 0xF000F804)
      (fun t => t.stored 14#4 == 0x105#32 && t.pc == 0x10C#32) = true := by decide

/-- V70e. -/
theorem test_bl_wraps_backward :
    nextIs (tick (withRegs start [(15#4, 0x1000#32)]) 32 0xF400D000)
      (fun t => t.stored 14#4 == 0x1005#32 && t.pc == 0xFF001004#32) = true := by decide

/-- V71a. -/
theorem test_bx_clears_bit0 :
    nextIs (tick (withRegs start [(14#4, 0x105#32)]) 16 0x4770)
      (fun t => t.pc == 0x104#32) = true := by decide

/-- V71d. -/
theorem test_bx_of_pc :
    nextIs (tick (withRegs start [(15#4, 0x102#32)]) 16 0x4778)
      (fun t => t.pc == 0x106#32) = true := by decide

/-- V72f. -/
theorem test_branch_taken_backward :
    nextIs (tick (withFlags (withRegs start [(15#4, 0x200#32)]) 0b0000#4) 16 0xD180)
      (fun t => t.pc == 0x104#32) = true := by decide

/-- V72b. -/
theorem test_branch_not_taken :
    nextIs (tick (withFlags (withRegs start [(15#4, 0x108#32)]) 0b0110#4) 16 0xD802)
      (fun t => t.pc == 0x10A#32 && !t.branchTaken) = true := by decide

/-- V73c. -/
theorem test_b_forward :
    nextIs (tick (withRegs start [(15#4, 0x200#32)]) 16 0xE3FF)
      (fun t => t.pc == 0xA02#32) = true := by decide

/-- V73e. -/
theorem test_b_wraps_backward :
    nextIs (tick (withRegs start [(15#4, 0x10#32)]) 16 0xE400)
      (fun t => t.pc == 0xFFFFF814#32) = true := by decide

/-- V75b. -/
theorem test_ldr_literal_aligns_the_pc :
    nextIs (tick ((withRegs start [(15#4, 0x102#32)]).writeWord 0x108#32 0x12345678#32) 16 0x4801)
      (fun t => t.stored 0#4 == 0x12345678#32 && t.pc == 0x104#32) = true := by decide

/-- V75e. -/
theorem test_ldr_literal_wraps :
    nextIs (tick ((withRegs start [(15#4, 0xFFFFFFF8#32)]).writeWord 0#32 0xCAFED00D#32) 16 0x4801)
      (fun t => t.stored 0#4 == 0xCAFED00D#32 && t.pc == 0xFFFFFFFA#32) = true := by decide

/-- V76b. -/
theorem test_str_misaligned :
    nextIs (tick (withBoundary (withRegs start [(0#4, 0x11223344#32), (13#4, 0x20000001#32)])) 16 0x9000)
      (fun t => t.stored 13#4 == 0x20000001#32 && t.pc == 0x102#32 &&
          t.readWord 0x20000000#32 == 0x223344AA#32 &&
          t.readWord 0x20000004#32 == 0xBBBBBB11#32) = true := by decide

/-- V76c. -/
theorem test_str_out_of_range :
    haltsAs (.boundsViolation 0xFFFFFFFD#32) ((withRegs start [(13#4, 0xFFFFFFFD#32)]).withFetchWord 16 0x9000)
      (tick (withRegs start [(13#4, 0xFFFFFFFD#32)]) 16 0x9000) = true := by decide

/-- V77a. -/
theorem test_push_order :
    nextIs (tick (withRegs start [(0#4, 0x11111111#32), (1#4, 0x22222222#32), (14#4, 0x105#32)]) 16 0xB503)
      (fun t => t.stored 13#4 == 0x20000FF4#32 && t.pc == 0x102#32 &&
          t.readWord 0x20000FF4#32 == 0x11111111#32 && t.readWord 0x20000FF8#32 == 0x22222222#32 &&
          t.readWord 0x20000FFC#32 == 0x105#32) = true := by decide

/-- V77f. -/
theorem test_push_checks_before_stores :
    haltsAs (.boundsViolation 0xFFFFFFFD#32) ((withRegs start [(0#4, 0x7#32), (1#4, 0x8#32), (13#4, 0x5#32)]).withFetchWord 16 0xB403)
      (tick (withRegs start [(0#4, 0x7#32), (1#4, 0x8#32), (13#4, 0x5#32)]) 16 0xB403) = true := by decide

/-- V78h. -/
theorem test_stm_writes_back_across_the_top :
    nextIs (tick (withRegs start [(3#4, 0xFFFFFFFC#32), (0#4, 0x1#32), (1#4, 0x2#32)]) 16 0xC303)
      (fun t => t.stored 3#4 == 0x4#32 && t.readWord 0xFFFFFFFC#32 == 0x1#32 &&
          t.readWord 0x0#32 == 0x2#32) = true := by decide

/-- V78g. -/
theorem test_stm_base_in_list_first :
    haltsAs (.deprecatedOperand) ((withRegs start [(3#4, 0xFFFFFFFE#32)]).withFetchWord 16 0xC30B)
      (tick (withRegs start [(3#4, 0xFFFFFFFE#32)]) 16 0xC30B) = true := by decide

/-- V79b. -/
theorem test_ldm_halts :
    haltsAs (.notImplemented) ((withRegs start [(1#4, 0x20000000#32)]).withFetchWord 16 0xC900)
      (tick (withRegs start [(1#4, 0x20000000#32)]) 16 0xC900) = true := by decide

/-- V80a. -/
theorem test_mrs_flags :
    nextIs (tick (withFlags start 0b0110#4) 32 0xF3EF8000)
      (fun t => t.stored 0#4 == 0x60000000#32 && t.pc == 0x104#32) = true := by decide

/-- V80l. -/
theorem test_mrs_to_pc_branches :
    nextIs (tick (withRegs start [(13#4, 0x20001001#32)]) 32 0xF3EF8F08)
      (fun t => t.pc == 0x20001000#32) = true := by decide

/-- V81a. -/
theorem test_msr_halts :
    haltsAs (.notImplemented) ((withRegs start [(0#4, 0xF0000000#32)]).withFetchWord 32 0xF3808800)
      (tick (withRegs start [(0#4, 0xF0000000#32)]) 32 0xF3808800) = true := by decide

/-- V82a. -/
theorem test_bkpt_ends :
    haltsAs (.programEnd) (start.withFetchWord 16 0xBE00)
      (tick start 16 0xBE00) = true := by decide

/-! ### The first instruction after reset -/

/-- R313, V55: MOV (immediate) placed at the reset PC. -/
theorem test_reset_runs_a_placed_word :
    nextIs (tick State.reset 16 0x2009) (fun t => t.stored 0#4 == 9#32 && t.pc == 2#32) = true := by decide

/-- V80f at address 0: MRS R2, MSP. -/
theorem test_reset_runs_a_placed_long_word :
    nextIs (tick State.reset 32 0xF3EF8208) (fun t => t.stored 2#4 == 0#32 && t.pc == 4#32) = true := by decide

/-- spec/opcode_table.json's numbering (log entry 8). -/
theorem test_table_word :
    decodeTableWord 16 0x1808 = some (.addReg 0#3 1#3 0#3) ∧
    decodeTableWord 32 0xF3808800 = some (.msr 0#4 .apsr) ∧ decodeTableWord 16 0xBF00 = none := by decide

/-! ### Witnesses: a state and operands that meet the hypotheses of each statement, clause by clause -/

/-- A state with the PC at an address. -/
def startAt (pc : Word) : State := start.store 15#4 pc

/-- A state with register 13 at a value. -/
def withSp (sp : Word) : State := start.store 13#4 sp

/-- The four bytes at the PC. -/
def fetched (s : State) : List Byte :=
  [s.readByte s.pc.toNat, s.readByte (s.pc.toNat + 1), s.readByte (s.pc.toNat + 2), s.readByte (s.pc.toNat + 3)]

/-- A block that ended well. -/
def ended : State := { start with run := .halted .programEnd }

/-- A block that failed. -/
def broken : State := { start with run := .halted .notImplemented }

/-- A boot port whose image ends at the top of memory. -/
def topImage : BootPort := { code := [0#8, 0xBE#8], loadAddr := 0xFFFFFFFE#32, entryAddr := 0x105#32, initSp := 3#32 }

/-- A boot port whose image ends one byte past the top of memory. -/
def overlongImage : BootPort := { topImage with loadAddr := 0xFFFFFFFF#32 }

/-- DecodeOfEncodeIsTheRecord: records at the ends of their ranges. -/
theorem witness_decodeOfEncode : Instr.wf (.push 0x40FF#16) = true ∧ Instr.wf (.bl 0xFF000000#32) = true ∧
    Instr.wf (.bCond .le 0xFFFFFF00#32) = true ∧ Instr.wf (.ldrLit 7#3 1020#32) = true := by decide

/-- EncodeOfDecodedIsTheConsumedBytes: a short form with a byte left over, and a long form. -/
theorem witness_encodeOfDecoded : decode [0x09#8, 0x20#8, 0xFF#8] = .ok (.movImm 0#3 9#32, [0xFF#8]) ∧
    decode [0x00#8, 0xF4#8, 0x00#8, 0xD0#8] = .ok (.bl 0xFF000000#32, []) := by decide

/-- TruncatedInputIffBytesAreMissing: each clause (V50). -/
theorem witness_truncated : ([0x09#8] : List Byte).length < 2 ∧ decode [] = .error .truncatedInput ∧
    isLongForm (halfOfBytes 0x09#8 0x20#8) = false ∧ isLongForm (halfOfBytes 0x00#8 0xF0#8) = true ∧
    ([0x04#8] : List Byte).length < 2 ∧ decode [0x00#8, 0xF0#8, 0x04#8] = .error .truncatedInput := by decide

/-- ShortFormIllegalExactlyInTheListedRanges: both sides of a boundary, and the last short form. -/
theorem witness_shortIllegal :
    isLongForm 0x17FF#16 = false ∧ illegalShort 0x17FF#16 = true ∧ isLongForm 0x1800#16 = false ∧
    illegalShort 0x1800#16 = false ∧ isLongForm 0xE7FF#16 = false ∧ illegalShort 0xDFFF#16 = true := by decide

/-- LongFormIllegalExactlyOutsideBlMsrMrs: each record, and a SYSm and a fixed bit that are wrong. -/
theorem witness_longIllegal :
    isLongForm 0xE800#16 = true ∧ legalLong 0xE800#16 0#16 = false ∧ legalLong 0xF7FF#16 0xFFFF#16 = true ∧
    legalLong 0xF3EF#16 0x8014#16 = true ∧ legalLong 0xF3EF#16 0x8001#16 = false ∧
    legalLong 0xF380#16 0x8800#16 = true ∧ legalLong 0xF390#16 0x8800#16 = false := by decide

/-- ShortFormsDecodeByMatchAndMask: the last word of each pattern. -/
theorem witness_matchAndMask : 0x19FF#16 &&& 0xFE00#16 = 0x1800#16 ∧ 0x1DFF#16 &&& 0xFE00#16 = 0x1C00#16 ∧
    0x27FF#16 &&& 0xF800#16 = 0x2000#16 ∧ 0x2FFF#16 &&& 0xF800#16 = 0x2800#16 ∧
    0x37FF#16 &&& 0xF800#16 = 0x3000#16 ∧ 0x43FF#16 &&& 0xFC00#16 = 0x4000#16 ∧
    0x4778#16 &&& 0xFF87#16 = 0x4700#16 ∧ 0x4FFF#16 &&& 0xF800#16 = 0x4800#16 ∧
    0x97FF#16 &&& 0xF800#16 = 0x9000#16 ∧ 0xC7FF#16 &&& 0xF800#16 = 0xC000#16 ∧
    0xCFFF#16 &&& 0xF800#16 = 0xC800#16 ∧ 0xE7FF#16 &&& 0xF800#16 = 0xE000#16 ∧
    Cond.le ≠ Cond.al ∧ 0xDDFF#16 &&& 0xFF00#16 = 0xD000#16 ||| Cond.le.code.setWidth 16 <<< 8 := by decide

/-- WordAccessIsLittleEndianLocalAndBounded, both clauses, at the boundary (V76c, V76d). -/
theorem witness_wordAccess :
    (0xFFFFFFFC#32 : Word).toNat ≤ 4294967292 ∧ 4294967292 < (0xFFFFFFFD#32 : Word).toNat := by decide

/-- RegisterFileReadAndWriteRules: another register than the one written, an even and an odd value. -/
theorem witness_registerFile : (14#4 : BitVec 4) ≠ 15#4 ∧ (0x104#32 : Word).getLsbD 0 = false ∧
    (0x105#32 : Word).getLsbD 0 = true ∧ (start.writeReg 15#4 0x105#32).readReg 15#4 = 0x108#32 := by decide

/-- FetchSeesAStoredWord, at the last address a fetch can read. -/
theorem witness_fetchSeesAStoredWord : (startAt 0xFFFFFFFC#32).pc.toNat ≤ 4294967292 ∧
    decodeHalves ((0x20092009#32 : Word).extractLsb' 0 16) ((0x20092009#32 : Word).extractLsb' 16 16) =
      some (.movImm 0#3 9#32) := by decide

/-- SpecialViewsReadTheirOwnedBits: the ends of the owned ranges. -/
theorem witness_specialViews : (0 : Nat) < 32 ∧ (8 : Nat) < 32 ∧ (27 : Nat) < 32 ∧ (31 : Nat) < 32 :=
  by decide

/-- UnexecutedDataProcessingHalts: an operation beside the executed one. -/
theorem witness_unexecuted :
    Instr.bics 7#3 0#3 ∈ [Instr.ands 7#3 0#3, .eors 7#3 0#3, .lsls 7#3 0#3, .lsrs 7#3 0#3, .asrs 7#3 0#3,
        .adcs 7#3 0#3, .sbcs 7#3 0#3, .rors 7#3 0#3, .tst 7#3 0#3, .rsbs 7#3 0#3, .cmn 7#3 0#3, .orrs 7#3 0#3,
        .muls 7#3 0#3, .bics 7#3 0#3] ∧
    (0b1001#4 : BitVec 4) ≠ 0b1010#4 ∧ (0b1001#4 : BitVec 4) ≠ 0b1111#4 := by decide

/-- ConditionalBranchGoesOrAdvances: taken and not taken. -/
theorem witness_conditionalBranch :
    Cond.eq ≠ Cond.al ∧ conditionPassed (some .eq) (withFlags start 0b0100#4).flags = true ∧
    conditionPassed (some .eq) start.flags = false := by decide

/-- StackStoreWritesOneWordOrHalts: both clauses at the boundary. -/
theorem witness_stackStore : (stackAddress (withSp 0xFFFFFFFC#32) 0#32).toNat ≤ 4294967292 ∧
    4294967292 < (stackAddress (withSp 0xFFFFFFFD#32) 0#32).toNat := by decide

/-- Every address of a list is in range, by evaluation. -/
theorem all_in_range {ws : List Word} (h : (ws.all fun w => decide (w.toNat ≤ 4294967292)) = true) :
    ∀ w ∈ ws, w.toNat ≤ 4294967292 := by
  simpa using h

/-- PushStoresItsBlockOrHalts: a block across the top of memory (V77g), and the empty list with a misaligned SP. -/
theorem witness_push :
    (∀ w ∈ wordAddresses (pushStart (withSp 4#32) 0x0003#16) (listCount 0x0003#16), w.toNat ≤ 4294967292) ∧
    (listed 0x0003#16)[1]? = some 1#4 ∧
    (∀ w ∈ wordAddresses (pushStart (withSp 3#32) 0#16) (listCount 0#16), w.toNat ≤ 4294967292) :=
  ⟨all_in_range (by decide), by decide, all_in_range (by decide)⟩

/-- PushStoresItsBlockOrHalts: the second word out of range, and the first (V77f). -/
theorem witness_push_halts :
    (1 < listCount 0x0003#16 ∧
      4294967292 < (pushStart (withSp 2#32) 0x0003#16 + BitVec.ofNat 32 (4 * 1)).toNat ∧
      ∀ j < 1, (pushStart (withSp 2#32) 0x0003#16 + BitVec.ofNat 32 (4 * j)).toNat ≤ 4294967292) ∧
    0 < listCount 0x0003#16 ∧
      4294967292 < (pushStart (withSp 5#32) 0x0003#16 + BitVec.ofNat 32 (4 * 0)).toNat ∧
      ∀ j < 0, (pushStart (withSp 5#32) 0x0003#16 + BitVec.ofNat 32 (4 * j)).toNat ≤ 4294967292 := by
  refine ⟨⟨by decide, by decide, fun j hj => ?_⟩, by decide, by decide, fun j hj => absurd hj (Nat.not_lt_zero j)⟩
  obtain rfl : j = 0 := by omega
  decide

/-- StoreMultipleStoresItsWordsOrHalts: base in and out of the list, a block across the top, the empty list. -/
theorem witness_stm :
    (0x000B#16 : BitVec 16).getLsbD (3#3 : BitVec 3).toNat = true ∧
    (0x0003#16 : BitVec 16).getLsbD (3#3 : BitVec 3).toNat = false ∧
    (∀ w ∈ wordAddresses ((start.store 3#4 0xFFFFFFFC#32).stored (low 3#3)) (listCount 0x0003#16),
      w.toNat ≤ 4294967292) ∧ (listed 0x0003#16)[0]? = some 0#4 ∧
    (∀ w ∈ wordAddresses ((start.store 3#4 0xFFFFFFFF#32).stored (low 3#3)) (listCount 0#16), w.toNat ≤ 4294967292) :=
  ⟨by decide, by decide, all_in_range (by decide), by decide, all_in_range (by decide)⟩

/-- StoreMultipleStoresItsWordsOrHalts: the second word out of range (V78f). -/
theorem witness_stm_halts :
    1 < listCount 0x0003#16 ∧
    4294967292 < ((start.store 3#4 0xFFFFFFFA#32).stored (low 3#3) + BitVec.ofNat 32 (4 * 1)).toNat ∧
    ∀ j < 1, ((start.store 3#4 0xFFFFFFFA#32).stored (low 3#3) + BitVec.ofNat 32 (4 * j)).toNat ≤ 4294967292 := by
  refine ⟨by decide, by decide, fun j hj => ?_⟩
  obtain rfl : j = 0 := by omega
  decide

/-- StepRunsTheDecodedInstruction, at the last address a fetch can read. -/
theorem witness_stepRuns :
    ((startAt 0xFFFFFFFC#32).withFetchWord 16 0x2009).run = .running ∧
    (startAt 0xFFFFFFFC#32).pc.toNat ≤ 4294967292 ∧
    decode (fetched ((startAt 0xFFFFFFFC#32).withFetchWord 16 0x2009)) = .ok (.movImm 0#3 9#32, [0#8, 0#8]) :=
  by decide

/-- FetchAndDecodeFailuresHalt: both failures. -/
theorem witness_fetchFails : (startAt 0xFFFFFFFE#32).run = .running ∧ 4294967292 < (startAt 0xFFFFFFFE#32).pc.toNat ∧
    decode (fetched start) = .error .illegalEncoding := by decide

/-- What the decoder answers for the halfwords at the PC. -/
def decodedAtPc (s : State) : Option Instr := decodeHalves (s.readHalf s.pc.toNat) (s.readHalf (s.pc.toNat + 2))

/-- ChecksComeInTheFixedOrder: decode, breakpoint and dispatch (witness_fetchFails has the fetch). -/
theorem witness_checks_before_dispatch :
    decodedAtPc start = none ∧ decodedAtPc (start.withFetchWord 16 0xBE01) = some (.bkpt 1#8) ∧
    decodedAtPc (start.withFetchWord 16 0xC803) = some (.ldm 0#3 0x0003#16) ∧
    lacksHandler (.ldm 0#3 0x0003#16) = true := by decide

/-- ChecksComeInTheFixedOrder: the operand check and the bounds checks. -/
theorem witness_checks_in_handlers : decodedAtPc (start.withFetchWord 16 0xC30B) = some (.stm 3#3 0x000B#16) ∧
    decodedAtPc (start.withFetchWord 16 0xC303) = some (.stm 3#3 0x0003#16) ∧
    (∃ w ∈ wordAddresses ((start.store 3#4 0xFFFFFFFA#32).stored (low 3#3)) (listCount 0x0003#16),
      4294967292 < w.toNat) ∧
    decodedAtPc (start.withFetchWord 16 0xB401) = some (.push 0x0001#16) ∧
    (∃ w ∈ wordAddresses (pushStart (withSp 2#32) 0x0001#16) (listCount 0x0001#16), 4294967292 < w.toNat) ∧
    decodedAtPc (start.withFetchWord 16 0x9000) = some (.strSp 0#3 0#32) ∧
    4294967292 < (stackAddress (withSp 0xFFFFFFFD#32) 0#32).toNat := by decide

/-- OnlyTheListedCausesAreRaised: a store that halts. -/
theorem witness_causes :
    Instr.wf (.strSp 0#3 0#32) = true ∧
    haltsAs (.boundsViolation 0xFFFFFFFD#32) (withSp 0xFFFFFFFD#32) (exec (.strSp 0#3 0#32) (withSp 0xFFFFFFFD#32)) = true ∧
    mayRaise (.boundsViolation 0xFFFFFFFD#32) (.strSp 0#3 0#32) = true := by decide

/-- EveryTickOfARunningBlockAnswers. -/
theorem witness_running : start.run = .running := by decide

/-- HaltsArePrecise: a halt of the decoder and one of a handler. -/
theorem witness_precise :
    haltsAs .illegalEncoding start (step start) = true ∧
    haltsAs .deprecatedOperand (start.withFetchWord 16 0xC003) (step (start.withFetchWord 16 0xC003)) = true :=
  by decide

/-- HaltedBlockMakesNoTick: the good end and a failure. -/
theorem witness_halted : ended.run = .halted .programEnd ∧ broken.run = .halted .notImplemented ∧
    HaltCause.notImplemented ≠ .programEnd := by decide

/-- AdvanceUnlessTheHandlerRedirects: an advance and a redirection. -/
theorem witness_advance : nextIs (exec (.bCond .eq 4#32) start) (fun t => t.run == .running) = true ∧
    redirects start.flags (.bCond .eq 4#32) = false ∧ redirects start.flags (.movReg 15#4 0#4) = true :=
  by decide

/-- StepKeepsTheInvariant: states that meet the invariant and step. -/
theorem witness_inv :
    State.reset.mem.wf ∧ State.reset.pc.getLsbD 0 = false ∧ nextIs (step start) (fun _ => true) = true ∧
    start.mem.wf ∧ start.pc.getLsbD 0 = false := by decide

/-- ResetMeetsTheInvariant: an image that ends at the top of memory. -/
theorem witness_bootInRange : OpenParams.zero.memInit.wf ∧ bootInRange topImage = true := by decide

/-- SpecialRegistersAreNeverWritten: a step with a next state. -/
theorem witness_neverWritten : nextIs (step start) (fun t => t.special == start.special) = true := by decide

/-- SpecialRegistersDoNotAffectExecution: a running state whose record is not MRS. -/
theorem witness_notMrs : ∀ i, (start.withFetchWord 16 0x2009).fetch = .ok i → readsSpecial i = false := by
  intro i h
  have e : (start.withFetchWord 16 0x2009).fetch = .ok (.movImm 0#3 9#32) := by decide
  rw [e] at h
  cases h
  rfl

/-- FlagsAreReadOnlyByBranchesAndMrs and FlagsChangeOnlyInFlagSettingInstructions. -/
theorem witness_flags :
    readsFlags (.mrs 0#4 .msp) = false ∧ readsFlags (.bx 14#4) = false ∧ writesFlags (.movImm 0#3 9#32) = false ∧
    nextIs (exec (.movImm 0#3 9#32) start) (fun _ => true) = true := by decide

/-- MemoryChangesOnlyInStores. -/
theorem witness_memory :
    storesMemory (.ldrLit 0#3 4#32) = false ∧ nextIs (exec (.ldrLit 0#3 4#32) start) (fun _ => true) = true :=
  by decide

/-- ResetSequenceLoadsTheBootPort: an image that ends at the top of memory, and an address below it. -/
theorem witness_reset :
    topImage.loadAddr.toNat + topImage.code.length ≤ 4294967296 ∧ topImage.code[1]? = some 0xBE#8 ∧
    (0 : Nat) < topImage.loadAddr.toNat := ⟨by simp [topImage], rfl, by simp [topImage]⟩

/-- ImageOutOfRangeHaltsTheReset: one byte too long, and the empty image (witness_reset has the one that fits). -/
theorem witness_imageOutOfRange :
    4294967296 < overlongImage.loadAddr.toNat + overlongImage.code.length ∧ BootPort.empty.code = [] :=
  ⟨by simp [topImage, overlongImage], rfl⟩

/-- RunEndsInExactlyOneOfThreeWays: each of the three. -/
theorem witness_runs : (runBudget 1 (start.withFetchWord 16 0x2009)).run = .running ∧
    (runBudget 1 (start.withFetchWord 16 0xBE00)).run = .halted .programEnd ∧
    (runBudget 2 start).run = .halted .illegalEncoding ∧
    HaltCause.illegalEncoding ≠ .programEnd := by decide

/-- BudgetStopsAndRunContinues: a running state with a next tick, a halted state, a run without a budget that ends
(scenario B's BKPT) and its budgeted form, and a reset state. -/
theorem witness_runControl : start.run = .running ∧ nextIs (step start) (fun _ => true) = true ∧ ended.run ≠ .running ∧
    RunsTo none (start.withFetchWord 16 0xBE00) (runBudget 1 (start.withFetchWord 16 0xBE00)) ∧
    RunsTo (some 1) (start.withFetchWord 16 0xBE00) (runBudget 1 (start.withFetchWord 16 0xBE00)) ∧
    State.reset = boot OpenParams.zero BootPort.empty := by
  refine ⟨by decide, by decide, by decide, ⟨by decide, 1, rfl⟩, rfl, by decide⟩

/-- MrsWritesTheSpecialReadValue and MsrHalts: a pair of the list of R35. -/
theorem witness_sysm : (16#8, SpecialReg.primask) ∈ [(0#8, SpecialReg.apsr), (3#8, .xpsr), (5#8, .ipsr), (6#8, .epsr),
    (8#8, .msp), (9#8, .psp), (16#8, .primask), (20#8, .control)] := by decide

/-- ObserverPortReadsTheState: the run states of its clauses, and a register that is not the PC. -/
theorem witness_observer_status : start.run = .running ∧ ended.run = .halted .programEnd ∧
    (4, HaltCause.deprecatedOperand) ∈ [(1, HaltCause.programEnd), (2, .illegalEncoding), (3, .notImplemented),
      (4, .deprecatedOperand)] ∧
    nextIs (step (startAt 0xFFFFFFFE#32)) (fun t => t.run == .halted (.boundsViolation 0xFFFFFFFE#32)) = true ∧
    (14#4 : BitVec 4) ≠ 15#4 := by decide

/-- ObserverPortReadsTheState: each clause of decode at an address. -/
theorem witness_observer : (0xFFFFFFFC#32 : Word).toNat ≤ 4294967292 ∧ 4294967292 < (0xFFFFFFFD#32 : Word).toNat ∧
    decode (fetched ((startAt 0xFFFFFFFC#32).withFetchWord 16 0x2009)) = .ok (.movImm 0#3 9#32, [0#8, 0#8]) ∧
    decode (fetched start) = .error .illegalEncoding := by decide

end Sys2Proof.Tests
end

section
/-! What a run with and without a budget is (spec/00_scope.md R9; spec/40_execution_engine.md R145; spec/60_exceptions.md
R296). -/

namespace Sys2Proof.Machine

/-- Every instruction has a next state: its halt, or what its handler leaves (R14, R146). -/
theorem exists_exec_eq_next (i : Instr) (s : State) : ∃ t, exec i s = .next t := by
  rcases exec_cases i s with ⟨c, h⟩ | ⟨f, h, -⟩
  · exact ⟨_, h⟩
  · exact ⟨_, h⟩

/-- A running block always makes its tick (R146). -/
theorem exists_step_eq_next {s : State} (h : s.run = .running) : ∃ t, step s = .next t := by
  rcases step_cases s with ⟨c, hc, -⟩ | ⟨-, c, -, hs⟩ | ⟨-, i, -, hs⟩
  · rw [h] at hc
    cases hc
  · exact ⟨_, hs⟩
  · rw [hs]
    exact exists_exec_eq_next i s

/-- A budget only cuts a run in two (R296). -/
theorem runBudget_add (j k : Nat) (s : State) : runBudget (j + k) s = runBudget k (runBudget j s) := by
  induction j generalizing s with
  | zero => rw [Nat.zero_add, runBudget_zero]
  | succ j ih =>
    by_cases h : s.run = .running
    · obtain ⟨u, hu⟩ := exists_step_eq_next h
      rw [Nat.succ_add_eq_add_succ, Nat.add_succ, runBudget_succ_of_next h hu, runBudget_succ_of_next h hu, ih]
    · simp only [runBudget_of_halted h]

/-- Budgets beyond the one in which the block halts add nothing. -/
theorem runBudget_add_of_halted {s : State} {j : Nat} (h : (runBudget j s).run ≠ .running) (k : Nat) :
    runBudget (j + k) s = runBudget j s := by
  rw [runBudget_add, runBudget_of_halted h]

/-- A run without a budget has at most one end. -/
theorem runsTo_none_unique {s t t' : State} (h : RunsTo none s t) (h' : RunsTo none s t') : t' = t := by
  obtain ⟨hr, j, rfl⟩ := h
  obtain ⟨hr', k, rfl⟩ := h'
  rw [← runBudget_add_of_halted hr k, Nat.add_comm, runBudget_add_of_halted hr' j]

/-- A run goes on for ever exactly when it has no end (R145). -/
theorem runsForEver_iff (s : State) : RunsForEver s ↔ ¬ ∃ t, RunsTo none s t := by
  constructor
  · rintro h ⟨t, hr, k, rfl⟩
    exact hr (h k)
  · intro h k
    by_contra hr
    exact h ⟨_, hr, k, rfl⟩

/-- A run without a budget is the run from the state after the first tick. -/
theorem runsTo_none_of_next {s u : State} (h : s.run = .running) (hu : step s = .next u) (t : State) :
    RunsTo none s t ↔ RunsTo none u t := by
  constructor
  · rintro ⟨hr, k, rfl⟩
    cases k with
    | zero => exact absurd h hr
    | succ k => exact ⟨hr, k, runBudget_succ_of_next h hu k⟩
  · rintro ⟨hr, k, rfl⟩
    exact ⟨hr, k + 1, (runBudget_succ_of_next h hu k).symm⟩

/-- A HALTED block ends every run at once and unchanged, with or without a budget (R292). -/
theorem runsTo_of_halted {s : State} (h : s.run ≠ .running) (budget : Option Nat) (t : State) :
    RunsTo budget s t ↔ t = s := by
  cases budget with
  | some k => rw [runsTo_some, runBudget_of_halted h]
  | none =>
    constructor
    · rintro ⟨-, k, rfl⟩
      exact runBudget_of_halted h k
    · rintro rfl
      exact ⟨h, 0, rfl⟩

/-- Settles O58: budgets add up because a running block always makes its tick and a halted one stays, so two ends of a
run without a budget are the end of one longer budgeted run. -/
theorem budgetStopsAndRunContinues : Obligations.BudgetStopsAndRunContinues := by
  unfold Obligations.BudgetStopsAndRunContinues
  intro s
  refine ⟨fun j k => runBudget_add j k s, ?_, ?_, fun t h => h.1, fun k t h hr => ⟨hr, k, h⟩, ?_,
    runsTo_of_halted, ?_⟩
  · rw [runsForEver_iff]
    by_cases h : ∃ t, RunsTo none s t
    · obtain ⟨t, ht⟩ := h
      exact .inl ⟨t, ht, fun t' ht' => runsTo_none_unique ht ht'⟩
    · exact .inr h
  · rw [runsForEver_iff]
    exact and_not_self
  · intro u h hu
    exact ⟨runsTo_none_of_next h hu, fun k t => by rw [runsTo_some, runsTo_some, runBudget_succ_of_next h hu]⟩
  · rintro p b budget t rfl
    exact Iff.rfl

end Sys2Proof.Machine
end

section
/-! The status and observer port (spec/00_scope.md R10; spec/60_exceptions.md R280; spec/20_memory.md R83). -/

namespace Sys2Proof

/-- On four bytes the decoder port and the decoder of two halfwords find the same record: four bytes are never too few,
and a short form ignores the second halfword (R70, R91). -/
theorem toOption_decode_four (b0 b1 b2 b3 : Byte) :
    (decode [b0, b1, b2, b3]).toOption.map Prod.fst = decodeHalves (halfOfBytes b0 b1) (halfOfBytes b2 b3) := by
  have decoded_fst (record : Option Instr) (rest : List Byte) :
      (decoded record rest).toOption.map Prod.fst = record := by
    cases record <;> rfl
  unfold decodeHalves
  cases h : isLongForm (halfOfBytes b0 b1) with
  | true => simp [decode, h, decoded_fst]
  | false => simp [decode, h, decoded_fst]

end Sys2Proof

namespace Sys2Proof.Machine

/-! ### Status -/

theorem State.isHalted_of_running {s : State} (h : s.run = .running) : s.isHalted = false := by
  simp [State.isHalted, h]
theorem State.haltCode_of_running {s : State} (h : s.run = .running) : s.haltCode = 0 := by
  simp [State.haltCode, h]
theorem State.haltAddress_of_running {s : State} (h : s.run = .running) : s.haltAddress = none := by
  simp [State.haltAddress, h]

theorem State.isHalted_of_halted {s : State} {c : HaltCause} (h : s.run = .halted c) : s.isHalted = true := by
  simp [State.isHalted, h]
theorem State.haltCode_of_halted {s : State} {c : HaltCause} (h : s.run = .halted c) : s.haltCode = c.code := by
  simp [State.haltCode, h]

theorem State.haltAddress_of_bounds {s : State} {a : Word} (h : s.run = .halted (.boundsViolation a)) :
    s.haltAddress = some a := by
  simp [State.haltAddress, h]

/-- Only a `BoundsViolation` records an address (R280). -/
theorem State.haltAddress_of_not_bounds {s : State} {c : HaltCause} (h : s.run = .halted c)
    (hc : c.isBounds = false) : s.haltAddress = none := by
  cases c with
  | boundsViolation a => cases hc
  | programEnd | illegalEncoding | notImplemented | deprecatedOperand => simp [State.haltAddress, h]

/-! ### Snapshot -/

theorem State.snapshot_reg (s : State) (i : BitVec 4) : s.snapshot.1[i.toNat]'i.isLt = s.stored i := rfl
theorem State.snapshot_flags (s : State) : s.snapshot.2 = s.flags := rfl
theorem State.snapshot_pc (s : State) : s.snapshot.1[15] = s.pc := rfl

theorem State.readReg_of_ne_pcIndex (s : State) {i : BitVec 4} (h : i ≠ pcIndex) : s.readReg i = s.stored i :=
  if_neg h

/-! ### Decode at an address -/

/-- What the decoder port finds in the four bytes at an address is what the fetch reads there. -/
theorem State.decodeHalves_readHalf (s : State) (a : Nat) :
    decodeHalves (s.readHalf a) (s.readHalf (a + 2)) =
      (decode [s.readByte a, s.readByte (a + 1), s.readByte (a + 2), s.readByte (a + 3)]).toOption.map Prod.fst :=
  (toOption_decode_four _ _ _ _).symm

theorem State.decodeAt_of_decode_ok {s : State} {addr : Word} (ha : inRange addr = true) {i : Instr} {rest : List Byte}
    (h : decode [s.readByte addr.toNat, s.readByte (addr.toNat + 1), s.readByte (addr.toNat + 2),
      s.readByte (addr.toNat + 3)] = .ok (i, rest)) : s.decodeAt addr = .ok i := by
  have hd : decodeHalves (s.readHalf addr.toNat) (s.readHalf (addr.toNat + 2)) = some i := by
    rw [State.decodeHalves_readHalf, h]
    rfl
  simp [State.decodeAt, ha, hd]

/-- Every failure of the decoder port on the bytes at an address is seen there as `IllegalEncoding` (R83). -/
theorem State.decodeAt_of_decode_error {s : State} {addr : Word} (ha : inRange addr = true) {e : DecodeError}
    (h : decode [s.readByte addr.toNat, s.readByte (addr.toNat + 1), s.readByte (addr.toNat + 2),
      s.readByte (addr.toNat + 3)] = .error e) : s.decodeAt addr = .error .illegalEncoding := by
  have hd : decodeHalves (s.readHalf addr.toNat) (s.readHalf (addr.toNat + 2)) = none := by
    rw [State.decodeHalves_readHalf, h]
    rfl
  simp [State.decodeAt, ha, hd]

theorem State.decodeAt_of_not_inRange (s : State) {addr : Word} (ha : inRange addr = false) :
    s.decodeAt addr = .error (.boundsViolation addr) := by
  simp [State.decodeAt, ha]

/-- `0xFFFFFFFC` is the last address in range. -/
theorem inRange_of_le {addr : Word} (h : addr.toNat ≤ 4294967292) : inRange addr = true :=
  (inRange_iff addr).2 (by omega)

/-- Settles O60: each accessor by the run state it reads, and decode at an address through the decoder port on the four
bytes there. -/
theorem observerPortReadsTheState : Obligations.ObserverPortReadsTheState := by
  unfold Obligations.ObserverPortReadsTheState
  intro s addr
  refine ⟨?running, ?unaddressed, ?bounds, s.snapshot_reg, ?readReg, s.snapshot_pc, ?pc, s.snapshot_flags,
    ?legal, ?illegal, ?outOfRange⟩
  case running =>
    exact fun h => ⟨State.isHalted_of_running h, State.haltCode_of_running h, State.haltAddress_of_running h⟩
  case unaddressed =>
    intro p hp
    obtain ⟨hcode, hbounds⟩ : p.2.code = p.1 ∧ p.2.isBounds = false := by
      revert p
      decide
    intro h
    exact ⟨State.isHalted_of_halted h, (State.haltCode_of_halted h).trans hcode,
      State.haltAddress_of_not_bounds h hbounds⟩
  case bounds =>
    exact fun h => ⟨State.isHalted_of_halted h, State.haltCode_of_halted h, State.haltAddress_of_bounds h⟩
  case readReg =>
    exact fun i hi => (s.snapshot_reg i).trans (s.readReg_of_ne_pcIndex hi).symm
  case pc =>
    rw [s.snapshot_pc]
    exact s.readReg_pc.symm
  case legal => exact fun ha i rest h => State.decodeAt_of_decode_ok (inRange_of_le ha) h
  case illegal => exact fun ha e h => State.decodeAt_of_decode_error (inRange_of_le ha) h
  case outOfRange => exact fun ha => s.decodeAt_of_not_inRange ((inRange_eq_false_iff addr).2 ha)

end Sys2Proof.Machine
end

section
/-! The normal form of an instruction: the halt its checks raise, or else its effect, which is computed from the state
before and then written (spec/40_execution_engine.md R140, R143; spec/60_exceptions.md R291). -/

namespace Sys2Proof.Machine

/-- What an instruction writes, its values already computed: words of memory, then registers, then the flags. -/
structure Effect where
  stores : List (Word × Word) := []
  writes : List (BitVec 4 × Word) := []
  flags : Option Flags := none

/-- Registers written in order, each by the register-file write rule. -/
def State.writeRegs : State → List (BitVec 4 × Word) → State
  | s, [] => s
  | s, w :: ws => (s.writeReg w.1 w.2).writeRegs ws

/-- The flags of an effect, where it has any. -/
def State.updateFlags (s : State) : Option Flags → State
  | none => s
  | some g => { s with flags := g }

/-- The state an effect leaves, the advance apart. -/
def Effect.apply (e : Effect) (s : State) : State :=
  ((s.writeWords e.stores).writeRegs e.writes).updateFlags e.flags

/-- The effect of the three forms of ADD (R180 to R182). -/
def sumEffect (rd : BitVec 4) (x y : Word) : Effect :=
  { writes := [(rd, (addWithCarry x y false).result)], flags := some (flagsOf (addWithCarry x y false)) }

/-- The effect of the multiple store with write-back (R242, R243). -/
def storeEffect (s : State) (start : Word) (registers : BitVec 16) (base : BitVec 4) (newBase : Word) : Effect :=
  { stores := storePlan s start (listed registers), writes := [(base, newBase)] }

/-- What an instruction that is not halted writes from a state; one that always halts writes nothing. -/
def effect : Instr → State → Effect
  | .addReg rm rn rd, s => sumEffect (low rd) (s.readReg (low rn)) (s.readReg (low rm))
  | .addImm3 imm32 rn rd, s => sumEffect (low rd) (s.readReg (low rn)) imm32
  | .addImm8 rdn imm32, s => sumEffect (low rdn) (s.readReg (low rdn)) imm32
  | .cmpImm rn imm32, s => { flags := some (flagsOf (subtract (s.readReg (low rn)) imm32)) }
  | .cmpReg rm rdn, s => { flags := some (flagsOf (subtract (s.readReg (low rdn)) (s.readReg (low rm)))) }
  | .mvns rm rdn, s =>
    { writes := [(low rdn, ~~~(s.readReg (low rm)))]
      flags := some (s.setFlagsMvn (~~~(s.readReg (low rm)))).flags }
  | .movImm rd imm32, _ => { writes := [(low rd, imm32)] }
  | .movReg rd rm, s => { writes := [(rd, s.readReg rm)] }
  | .addSp imm32, s => { writes := [(spIndex, (addWithCarry (s.readReg spIndex) imm32 false).result)] }
  | .subSp imm32, s => { writes := [(spIndex, (subtract (s.readReg spIndex) imm32).result)] }
  | .bx rm, s => { writes := [(pcIndex, s.readReg rm)] }
  | .b imm32, s => { writes := [(pcIndex, branchTarget s imm32)] }
  | .bl imm32, s => { writes := [(lrIndex, setBit0 (s.readReg pcIndex)), (pcIndex, branchTarget s imm32)] }
  | .bCond cond imm32, s =>
    { writes := if conditionPassed (some cond) s.flags then [(pcIndex, branchTarget s imm32)] else [] }
  | .mrs rd sysm, s => { writes := [(rd, s.specialRead sysm)] }
  | .ldrLit rt imm32, s => { writes := [(low rt, s.readWord (literalAddress s imm32))] }
  | .strSp rt imm32, s => { stores := [(stackAddress s imm32, s.readReg (low rt))] }
  | .push registers, s => storeEffect s (pushStart s registers) registers spIndex (pushStart s registers)
  | .stm rn registers, s =>
    storeEffect s (s.readReg (low rn)) registers (low rn) (s.readReg (low rn) + listBytes registers)
  | .ands _ _, _ | .eors _ _, _ | .lsls _ _, _ | .lsrs _ _, _ | .asrs _ _, _ | .adcs _ _, _ | .sbcs _ _, _
  | .rors _ _, _ | .tst _ _, _ | .rsbs _ _, _ | .cmn _ _, _ | .orrs _ _, _ | .muls _ _, _ | .bics _ _, _
  | .ldm _ _, _ | .msr _ _, _ | .bkpt _, _ => {}

/-- The halt of a data access (R63). -/
def accessHalt (addr : Word) : Option HaltCause := if inRange addr then none else some (.boundsViolation addr)

/-- The halt of a multiple store (R242, R243). -/
def storeHalt (s : State) (start : Word) (registers : BitVec 16) : Option HaltCause :=
  (firstOutOfRange (storePlan s start (listed registers))).map .boundsViolation

/-- The halt an instruction raises in a state, if any (R289). -/
def haltOf : Instr → State → Option HaltCause
  | .ldrLit _ imm32, s => accessHalt (literalAddress s imm32)
  | .strSp _ imm32, s => accessHalt (stackAddress s imm32)
  | .push registers, s => storeHalt s (pushStart s registers) registers
  | .stm rn registers, s =>
    if registers.getLsbD (low rn).toNat then some .deprecatedOperand
    else storeHalt s (s.readReg (low rn)) registers
  | .bkpt _, _ => some .programEnd
  | .ands _ _, _ | .eors _ _, _ | .lsls _ _, _ | .lsrs _ _, _ | .asrs _ _, _ | .adcs _ _, _ | .sbcs _ _, _
  | .rors _ _, _ | .tst _ _, _ | .rsbs _ _, _ | .cmn _ _, _ | .orrs _ _, _ | .muls _ _, _ | .bics _ _, _
  | .ldm _ _, _ | .msr _ _, _ => some .notImplemented
  | .addReg _ _ _, _ | .addImm3 _ _ _, _ | .addImm8 _ _, _ | .cmpImm _ _, _ | .cmpReg _ _, _ | .mvns _ _, _
  | .movImm _ _, _ | .movReg _ _, _ | .addSp _, _ | .subSp _, _ | .bx _, _ | .b _, _ | .bl _, _ | .bCond _ _, _
  | .mrs _ _, _ => none

/-- The halt, or the effect and the advance. -/
def haltOrApply (halt : Option HaltCause) (width : Word) (e : Effect) (s : State) :
    Host.Outcome State Fault Refusal :=
  match halt with
  | some c => raise c s
  | none => execute width e.apply s

theorem State.readWord_clear (s : State) (b : Bool) (addr : Word) :
    ({ s with branchTaken := b } : State).readWord addr = s.readWord addr := rfl

theorem State.specialRead_clear (s : State) (b : Bool) (sysm : SpecialReg) :
    ({ s with branchTaken := b } : State).specialRead sysm = s.specialRead sysm := by
  cases sysm <;> rfl

theorem execute_eq_haltOrApply {width : Word} {f : State → State} {e : Effect} {s : State}
    (h : f { s with branchTaken := false } = e.apply { s with branchTaken := false }) :
    execute width f s = haltOrApply none width e s := by
  simp only [execute, haltOrApply, h]

theorem access_eq_haltOrApply {addr width : Word} {f : State → State} {e : Effect} {s : State}
    (h : f { s with branchTaken := false } = e.apply { s with branchTaken := false }) :
    access addr (execute width f s) s = haltOrApply (accessHalt addr) width e s := by
  unfold access accessHalt
  split
  · exact execute_eq_haltOrApply h
  · rfl

theorem storeMultiple_eq_haltOrApply (start : Word) (registers : BitVec 16) (base : BitVec 4) (newBase : Word)
    (s : State) : storeMultiple start registers base newBase s =
      haltOrApply (storeHalt s start registers) shortForm (storeEffect s start registers base newBase) s := by
  unfold storeMultiple storeHalt
  cases firstOutOfRange (storePlan s start (listed registers)) with
  | some a => rfl
  | none => simp [haltOrApply, execute, storeEffect, Effect.apply, State.writeRegs, State.updateFlags]

/-- Every instruction is its halt, or its effect and the advance by its width. -/
theorem exec_eq_haltOrApply (i : Instr) (s : State) :
    exec i s = haltOrApply (haltOf i s) (BitVec.ofNat 32 i.width) (effect i s) s := by
  cases i with
  | addReg | addImm3 | addImm8 | movImm | movReg | cmpImm | cmpReg | addSp | subSp | bx | b | bl =>
    dsimp only [exec, haltOf]
    exact execute_eq_haltOrApply rfl
  | mvns rm rdn =>
    dsimp only [exec, haltOf]
    refine execute_eq_haltOrApply ?_
    simp only [State.setFlagsMvn, State.writeReg_flags]
    rfl
  | bCond cond imm32 =>
    dsimp only [exec, haltOf]
    refine execute_eq_haltOrApply ?_
    simp only [effect, Effect.apply]
    split <;> rfl
  | mrs rd sysm =>
    dsimp only [exec, haltOf]
    exact execute_eq_haltOrApply (congrArg (State.writeReg _ rd) (s.specialRead_clear false sysm))
  | ldrLit rt imm32 =>
    exact access_eq_haltOrApply (congrArg (State.writeReg _ (low rt)) (s.readWord_clear false _))
  | strSp rt imm32 =>
    exact access_eq_haltOrApply (e := effect (.strSp rt imm32) s) rfl
  | push registers => exact storeMultiple_eq_haltOrApply _ _ _ _ s
  | stm rn registers =>
    simp only [exec, execStm, haltOf]
    split
    · rfl
    · exact storeMultiple_eq_haltOrApply _ _ _ _ s
  | ands | eors | lsls | lsrs | asrs | adcs | sbcs | rors | tst | rsbs | cmn | orrs | muls | bics | ldm | msr | bkpt =>
    rfl

end Sys2Proof.Machine
end

section
/-! What every instruction and every step keeps, and what neither depends on (spec/10_state.md R29, R32, R33, R40,
R41). -/

namespace Sys2Proof.Machine

/-! ### What an instruction and a step can answer -/

/-- The next state of an instruction: its halt, or its effect and the advance. -/
theorem exec_next {i : Instr} {s t : State} (h : exec i s = .next t) :
    (∃ c, raise c s = .next t) ∨
      t = ((effect i s).apply { s with branchTaken := false }).advance (BitVec.ofNat 32 i.width) := by
  rw [exec_eq_haltOrApply] at h
  cases hc : haltOf i s with
  | some c => exact .inl ⟨c, by simpa only [hc, haltOrApply] using h⟩
  | none =>
    rw [hc] at h
    cases h
    exact .inr rfl

/-- No instruction writes a special register, and each keeps memory canonical. -/
theorem exec_special_and_mem_wf {i : Instr} {s t : State} (h : exec i s = .next t) :
    t.special = s.special ∧ (s.mem.wf → t.mem.wf) := by
  rcases exec_cases i s with ⟨c, hx⟩ | ⟨f, hx, hf⟩
  · obtain ⟨-, -, hspecial, hmem, -⟩ := raise_frame (hx.symm.trans h)
    exact ⟨hspecial, fun hw => hmem ▸ hw⟩
  · obtain ⟨-, hspecial, hmem, -⟩ := execute_next (hx.symm.trans h)
    exact ⟨hspecial.trans hf.special, fun hw => hmem ▸ hf.mem hw⟩

/-- The next state of a step: the state of a halted block, a halt, or that of an instruction. -/
theorem step_next {s t : State} (h : step s = .next t) :
    t = s ∨ (∃ c, raise c s = .next t) ∨ ∃ i, exec i s = .next t := by
  rcases step_cases s with ⟨c, -, hs⟩ | ⟨-, c, -, hs⟩ | ⟨-, i, -, hs⟩
  · rw [hs] at h
    rcases haltedStep_cases c s with ⟨-, hc⟩ | ⟨-, hc⟩
    · rw [hc] at h
      cases h
      exact .inl rfl
    · rw [hc] at h
      cases h
  · exact .inr (.inl ⟨c, hs ▸ h⟩)
  · exact .inr (.inr ⟨i, hs ▸ h⟩)

theorem step_of_halted {s : State} {c : HaltCause} (h : s.run = .halted c) : step s = haltedStep c s := by
  simp [step, h]
theorem step_of_fetch_error {s : State} {c : HaltCause} (h : s.run = .running) (hf : s.fetch = .error c) :
    step s = raise c s := by
  simp [step, h, hf]
theorem step_of_fetch_ok {s : State} {i : Instr} (h : s.run = .running) (hf : s.fetch = .ok i) :
    step s = exec i s := by
  simp [step, h, hf]

/-! ### The PC stays even (R29) -/

theorem getLsbD_clearBit0 (v : Word) (j : Nat) : (clearBit0 v).getLsbD j = (!decide (j = 0) && v.getLsbD j) := by
  rw [clearBit0, show 0xFFFFFFFE#32 = ~~~(1#32) by decide, BitVec.getLsbD_and, BitVec.getLsbD_not, BitVec.getLsbD_one]
  by_cases h : j < 32
  · simp [h, Bool.and_comm]
  · simp [BitVec.getLsbD_of_ge v j (by omega)]

theorem State.pc_even_writeReg {s : State} (h : s.pc.getLsbD 0 = false) (i : BitVec 4) (v : Word) :
    (s.writeReg i v).pc.getLsbD 0 = false := by
  rw [State.pc, State.stored_writeReg]
  split
  · next hi =>
    rw [if_pos hi.symm, getLsbD_clearBit0]
    rfl
  · exact h

theorem State.pc_even_writeRegs (ws : List (BitVec 4 × Word)) {s : State} (h : s.pc.getLsbD 0 = false) :
    (s.writeRegs ws).pc.getLsbD 0 = false := by
  induction ws generalizing s with
  | nil => exact h
  | cons w ws ih => exact ih (State.pc_even_writeReg h w.1 w.2)

theorem State.updateFlags_pc (s : State) (g : Option Flags) : (s.updateFlags g).pc = s.pc := by
  cases g <;> rfl

theorem Effect.pc_even_apply (e : Effect) {s : State} (h : s.pc.getLsbD 0 = false) :
    (e.apply s).pc.getLsbD 0 = false := by
  rw [Effect.apply, State.updateFlags_pc]
  exact State.pc_even_writeRegs _ (by simpa [State.pc] using h)

theorem State.pc_even_advance {s : State} {w : Word} (h : s.pc.getLsbD 0 = false) (hw : w.getLsbD 0 = false) :
    (s.advance w).pc.getLsbD 0 = false := by
  rw [State.pc, State.stored_advance]
  split
  · rw [BitVec.getLsbD_add (by decide), h, hw, BitVec.carry_zero]
    rfl
  · exact h

/-- The advance is by 2 or 4 (R90, R144). -/
theorem width_even (i : Instr) : (BitVec.ofNat 32 i.width).getLsbD 0 = false := by
  have h : i.width = 2 ∨ i.width = 4 := by
    cases i with
    | bl | msr | mrs => exact .inr rfl
    | _ => exact .inl rfl
  rcases h with h | h <;> rw [h] <;> decide

theorem raise_pc {c : HaltCause} {s t : State} (h : raise c s = .next t) : t.pc = s.pc := by
  rw [raise_next h]
  rfl

theorem exec_pc_even {i : Instr} {s t : State} (hp : s.pc.getLsbD 0 = false) (h : exec i s = .next t) :
    t.pc.getLsbD 0 = false := by
  rcases exec_next h with ⟨c, hc⟩ | rfl
  · rw [raise_pc hc, hp]
  · exact State.pc_even_advance (Effect.pc_even_apply _ hp) (width_even i)

/-- Settles O49: register 15 is written with bit 0 cleared or advanced by an even width, and every store is checked
to be in range. -/
theorem stepKeepsTheInvariant : Obligations.StepKeepsTheInvariant := by
  unfold Obligations.StepKeepsTheInvariant
  rintro s t ⟨hm, hp⟩ h
  rcases step_next h with rfl | ⟨c, hc⟩ | ⟨i, hi⟩
  · exact ⟨hm, hp⟩
  · obtain ⟨-, -, -, hmem, -⟩ := raise_frame hc
    exact ⟨hmem ▸ hm, raise_pc hc ▸ hp⟩
  · exact ⟨(exec_special_and_mem_wf hi).2 hm, exec_pc_even hp hi⟩

/-- Settles O50: the PC of a fitting boot is written through the register file, and `State.reset` is such a boot. -/
theorem resetMeetsTheInvariant : Obligations.ResetMeetsTheInvariant := by
  unfold Obligations.ResetMeetsTheInvariant
  have hboot : ∀ (p : OpenParams) (b : BootPort), p.memInit.wf → bootInRange b = true → (boot p b).Inv := by
    intro p b hm hb
    refine ⟨boot_wf hm b, ?_⟩
    have hpc : (boot p b).pc = clearBit0 b.entryAddr := by
      simp only [boot, hb, if_true, State.pc, State.stored_clear, State.stored_writeReg]
    rw [hpc, getLsbD_clearBit0]
    rfl
  exact ⟨boot_default ▸ hboot OpenParams.zero BootPort.empty (by decide) (by decide), hboot⟩

/-! ### The flags (R31 to R33) -/

theorem State.writeRegs_flags (ws : List (BitVec 4 × Word)) (s : State) : (s.writeRegs ws).flags = s.flags := by
  induction ws generalizing s with
  | nil => rfl
  | cons w ws ih => rw [State.writeRegs, ih, State.writeReg_flags]

theorem Effect.apply_flags (e : Effect) (s : State) : (e.apply s).flags = e.flags.getD s.flags := by
  unfold Effect.apply
  cases e.flags with
  | none => exact (State.writeRegs_flags _ _).trans (State.writeWords_flags _ s)
  | some g => rfl

/-- Only the flag-setting instructions of R32 have flags in their effect. -/
theorem effect_flags_eq_none {i : Instr} (h : writesFlags i = false) (s : State) : (effect i s).flags = none := by
  cases i with
  | addReg | addImm3 | addImm8 | cmpImm | cmpReg | mvns => cases h
  | _ => rfl

/-- Settles O54: a halt keeps the flags, and so does an effect without flags. -/
theorem flagsChangeOnlyInFlagSettingInstructions : Obligations.FlagsChangeOnlyInFlagSettingInstructions := by
  unfold Obligations.FlagsChangeOnlyInFlagSettingInstructions
  intro i s t hw h
  rcases exec_next h with ⟨c, hc⟩ | rfl
  · rw [raise_next hc]
  · rw [State.advance_flags, Effect.apply_flags, effect_flags_eq_none hw]
    rfl

/-! ### Other flags and other special registers -/

/-- The state with other flags and another special-register array. -/
def State.withStatus (s : State) (g : Flags) (x : Vector Word Config.specialCount) : State :=
  { s with flags := g, special := x }

theorem State.writeWords_withStatus (ws : List (Word × Word)) (s : State) (g : Flags)
    (x : Vector Word Config.specialCount) :
    (s.withStatus g x).writeWords ws = (s.writeWords ws).withStatus g x := by
  induction ws generalizing s with
  | nil => rfl
  | cons w ws ih => exact ih (s.writeWord w.1 w.2)

theorem State.writeReg_withStatus (s : State) (i : BitVec 4) (v : Word) (g : Flags)
    (x : Vector Word Config.specialCount) :
    (s.withStatus g x).writeReg i v = (s.writeReg i v).withStatus g x := by
  unfold State.writeReg
  split <;> rfl

theorem State.writeRegs_withStatus (ws : List (BitVec 4 × Word)) (s : State) (g : Flags)
    (x : Vector Word Config.specialCount) :
    (s.withStatus g x).writeRegs ws = (s.writeRegs ws).withStatus g x := by
  induction ws generalizing s with
  | nil => rfl
  | cons w ws ih => rw [State.writeRegs, State.writeReg_withStatus, ih, State.writeRegs]

theorem State.updateFlags_withStatus (s : State) (o : Option Flags) (g : Flags)
    (x : Vector Word Config.specialCount) :
    (s.withStatus g x).updateFlags o = s.withStatus (o.getD g) x := by
  cases o <;> rfl

theorem State.withStatus_updateFlags (s : State) (o : Option Flags) (g : Flags)
    (x : Vector Word Config.specialCount) : (s.updateFlags o).withStatus g x = s.withStatus g x := by
  cases o <;> rfl

theorem State.advance_withStatus (s : State) (w : Word) (g : Flags) (x : Vector Word Config.specialCount) :
    (s.withStatus g x).advance w = (s.advance w).withStatus g x := by
  unfold State.advance
  rw [show (s.withStatus g x).branchTaken = s.branchTaken from rfl]
  split <;> rfl

/-- Effects that write the same words and registers leave states that differ in the flags and the special registers
alone. -/
theorem Effect.apply_withStatus {e e' : Effect} (hs : e'.stores = e.stores) (hw : e'.writes = e.writes) (s : State)
    (g : Flags) (x : Vector Word Config.specialCount) :
    e'.apply (s.withStatus g x) = (e.apply s).withStatus (e'.flags.getD g) x := by
  unfold Effect.apply
  rw [State.writeWords_withStatus, State.writeRegs_withStatus, State.updateFlags_withStatus, hs, hw,
    State.withStatus_updateFlags]

theorem storePlan_withStatus (s : State) (g : Flags) (x : Vector Word Config.specialCount) (start : Word)
    (is : List (BitVec 4)) : storePlan (s.withStatus g x) start is = storePlan s start is := by
  rw [storePlan_eq_map, storePlan_eq_map]
  rfl

/-- No halt depends on a flag or a special register. -/
theorem haltOf_withStatus (i : Instr) (s : State) (g : Flags) (x : Vector Word Config.specialCount) :
    haltOf i (s.withStatus g x) = haltOf i s := by
  cases i with
  | push | stm =>
    simp only [haltOf, storeHalt, storePlan_withStatus]
    rfl
  | _ => rfl

/-- But for MRS, what an instruction writes depends on no special register. -/
theorem effect_withSpecial {i : Instr} (h : readsSpecial i = false) (s : State)
    (x : Vector Word Config.specialCount) : effect i (s.withStatus s.flags x) = effect i s := by
  cases i with
  | mrs => cases h
  | push | stm =>
    simp only [effect, storeEffect, storePlan_withStatus]
    rfl
  | _ => rfl

/-- But for B cond and MRS of APSR or XPSR, the words and registers an instruction writes depend on no flag. -/
theorem effect_withFlags {i : Instr} (h : readsFlags i = false) (s : State) (g : Flags) :
    (effect i (s.withStatus g s.special)).stores = (effect i s).stores ∧
      (effect i (s.withStatus g s.special)).writes = (effect i s).writes := by
  cases i with
  | bCond => cases h
  | mrs rd sysm =>
    cases sysm with
    | apsr | xpsr => cases h
    | _ => exact ⟨rfl, rfl⟩
  | push | stm => exact ⟨storePlan_withStatus s g _ _ _, rfl⟩
  | _ => exact ⟨rfl, rfl⟩

theorem execute_withStatus {e e' : Effect} (hs : e'.stores = e.stores) (hw : e'.writes = e.writes) (width : Word)
    (s : State) (g : Flags) (x : Vector Word Config.specialCount) :
    execute width e'.apply (s.withStatus g x) =
      mapNext (fun t => t.withStatus (e'.flags.getD g) x) (execute width e.apply s) := by
  change Host.Outcome.next ((e'.apply (({ s with branchTaken := false } : State).withStatus g x)).advance width) = _
  rw [Effect.apply_withStatus hs hw, State.advance_withStatus]
  rfl

theorem State.withStatus_of_flags_eq {s : State} {g : Flags} (h : s.flags = g)
    (x : Vector Word Config.specialCount) : s.withStatus g x = { s with special := x } := by
  subst h
  rfl

/-- But for MRS, an instruction answers the same with other special registers, and keeps those. -/
theorem exec_withSpecial {i : Instr} (h : readsSpecial i = false) (s : State)
    (x : Vector Word Config.specialCount) :
    exec i { s with special := x } = mapNext (fun t => { t with special := x }) (exec i s) := by
  change exec i (s.withStatus s.flags x) = _
  rw [exec_eq_haltOrApply, exec_eq_haltOrApply, haltOf_withStatus, effect_withSpecial h]
  cases haltOf i s with
  | some c => rfl
  | none =>
    refine (execute_withStatus rfl rfl _ s s.flags x).trans (congrArg Host.Outcome.next ?_)
    exact State.withStatus_of_flags_eq ((State.advance_flags _ _).trans (Effect.apply_flags _ _)) x

/-- Settles O52: the fetch reads the PC and memory, and every record but MRS the registers, the flags and memory. -/
theorem specialRegistersDoNotAffectExecution : Obligations.SpecialRegistersDoNotAffectExecution := by
  unfold Obligations.SpecialRegistersDoNotAffectExecution
  intro s x hf
  have hfetch : ({ s with special := x } : State).fetch = s.fetch := rfl
  rcases step_cases s with ⟨c, hr, hs⟩ | ⟨hr, c, hc, hs⟩ | ⟨hr, i, hi, hs⟩
  · rw [hs, step_of_halted (s := { s with special := x }) hr]
    cases c <;> rfl
  · rw [hs, step_of_fetch_error (s := { s with special := x }) hr (hfetch.trans hc)]
    rfl
  · rw [hs, step_of_fetch_ok (s := { s with special := x }) hr (hfetch.trans hi)]
    exact exec_withSpecial (hf i hi) s x

/-- But for the readers of the flags, an instruction answers the same with other flags, the flags apart. -/
theorem exec_withFlags {i : Instr} (h : readsFlags i = false) (s : State) (g : Flags) :
    ∃ g', exec i { s with flags := g } = mapNext (fun t => t.withStatus g' s.special) (exec i s) := by
  change ∃ g', exec i (s.withStatus g s.special) = _
  obtain ⟨hstores, hwrites⟩ := effect_withFlags h s g
  rw [exec_eq_haltOrApply, exec_eq_haltOrApply, haltOf_withStatus]
  cases haltOf i s with
  | some c => exact ⟨g, rfl⟩
  | none => exact ⟨_, execute_withStatus hstores hwrites _ s g s.special⟩

/-- Settles O53: the two next states differ in the flags alone. -/
theorem flagsAreReadOnlyByBranchesAndMrs : Obligations.FlagsAreReadOnlyByBranchesAndMrs := by
  unfold Obligations.FlagsAreReadOnlyByBranchesAndMrs
  intro i s g h
  obtain ⟨t, ht⟩ := exists_exec_eq_next i s
  obtain ⟨g', hg⟩ := exec_withFlags h s g
  rw [ht] at hg
  exact ⟨t, _, ht, hg, rfl, (exec_special_and_mem_wf ht).1.symm, rfl, rfl, rfl⟩

end Sys2Proof.Machine
end

section
/-! What the special registers hold and read (spec/10_state.md R37 to R40), and the register-file rules (R23, R24). -/

namespace Sys2Proof.Machine

theorem step_special {s t : State} (h : step s = .next t) : t.special = s.special := by
  rcases step_next h with rfl | ⟨c, hc⟩ | ⟨i, hi⟩
  · rfl
  · rw [raise_next hc]
  · exact (exec_special_and_mem_wf hi).1

theorem runBudget_special (k : Nat) (s : State) : (runBudget k s).special = s.special := by
  induction k generalizing s with
  | zero => rfl
  | succ k ih =>
    by_cases h : s.run = .running
    · obtain ⟨t, ht⟩ := exists_step_eq_next h
      rw [runBudget_succ_of_next h ht, ih, step_special ht]
    · rw [runBudget_of_halted h]

theorem boot_special (p : OpenParams) (b : BootPort) : (boot p b).special = (powerOn p).special := by
  unfold boot
  split
  · simp only [State.writeReg_special]
  · rfl

/-- The slots the reset sequence leaves: PSP, and 0 elsewhere (R50). -/
theorem slot_of_special_eq_powerOn {s : State} {p : OpenParams} (h : s.special = (powerOn p).special) :
    s.slot 0 = 0#32 ∧ s.slot 1 = p.resetPsp ∧ s.slot 2 = 0#32 ∧ s.slot 3 = 0#32 := by
  unfold State.slot
  rw [h]
  exact ⟨rfl, rfl, rfl, rfl⟩

/-- Settles O51: the slots are those of the reset sequence after any number of ticks, and each view of a slot that is 0
is 0. -/
theorem specialRegistersAreNeverWritten : Obligations.SpecialRegistersAreNeverWritten := by
  unfold Obligations.SpecialRegistersAreNeverWritten
  refine ⟨fun s t h => step_special h, fun p b k => ?_⟩
  obtain ⟨hpsr, hpsp, hprimask, hcontrol⟩ :=
    slot_of_special_eq_powerOn ((runBudget_special k (boot p b)).trans (boot_special p b))
  generalize runBudget k (boot p b) = s at *
  have hipsr : s.ipsrView = 0#32 := by rw [State.ipsrView, State.psrBacking, hpsr, BitVec.zero_and]
  refine ⟨hipsr, rfl, ?primask, ?control, hpsp, s.readReg_sp, ?xpsr, ?apsr⟩
  case primask => rw [State.specialRead, State.primask, hprimask, BitVec.zero_and]
  case control => rw [State.specialRead, State.control, hcontrol, BitVec.zero_and]
  case xpsr => rw [State.specialRead, State.specialRead, hipsr, BitVec.or_zero]
  case apsr => rw [State.specialRead, State.apsrView, State.psrBacking, hpsr, BitVec.zero_and, BitVec.or_zero]

/-! ### The views, bit by bit (R37 to R39) -/

/-- One flag shifted to its place. -/
theorem getLsbD_flagPlace (f : Bool) {n j : Nat} (hj : j < 32) :
    ((BitVec.ofBool f).setWidth 32 <<< n).getLsbD j = (decide (j = n) && f) := by
  rw [BitVec.getLsbD_shiftLeft, BitVec.getLsbD_setWidth, BitVec.getLsbD_ofBool]
  by_cases h : j = n
  · simp [h]
    omega
  · simp [h]
    omega

theorem getLsbD_flagBits (f : Flags) {j : Nat} (hj : j < 32) :
    (flagBits f).getLsbD j = (decide (j = 31) && f.n || decide (j = 30) && f.z || decide (j = 29) && f.c ||
      decide (j = 28) && f.v) := by
  simp only [flagBits, BitVec.getLsbD_or, getLsbD_flagPlace _ hj]

theorem getLsbD_apsrView (s : State) {j : Nat} (hj : j < 32) :
    s.apsrView.getLsbD j = ((flagBits s.flags).getLsbD j || (s.slot 0).getLsbD j && decide (j = 27)) := by
  have hmask : ∀ k < 32, (0x08000000#32 : Word).getLsbD k = decide (k = 27) := by decide
  rw [State.apsrView, BitVec.getLsbD_or, BitVec.getLsbD_and, hmask j hj]
  rfl

/-- Settles O17: each view is its slot, the flags or register 13 under a mask, read bit by bit. -/
theorem specialViewsReadTheirOwnedBits : Obligations.SpecialViewsReadTheirOwnedBits := by
  unfold Obligations.SpecialViewsReadTheirOwnedBits
  intro s j hj
  have mask9 : ∀ k < 32, (0x000001FF#32 : Word).getLsbD k = decide (k ≤ 8) := by decide
  have mask1 : ∀ k < 32, (0x00000001#32 : Word).getLsbD k = decide (k = 0) := by decide
  have mask2 : ∀ k < 32, (0x00000003#32 : Word).getLsbD k = decide (k ≤ 1) := by decide
  refine ⟨?apsr, ?ipsr, BitVec.getLsbD_zero, BitVec.getLsbD_or, ?msp, rfl, ?primask, ?control⟩
  case apsr =>
    rw [State.specialRead, getLsbD_apsrView s hj, getLsbD_flagBits _ hj]
    split_ifs <;> simp [*]
  case ipsr => rw [State.specialRead, State.ipsrView, BitVec.getLsbD_and, mask9 j hj, Bool.and_comm]; rfl
  case msp => exact congrArg (·.getLsbD j) s.readReg_sp
  case primask => rw [State.specialRead, BitVec.getLsbD_and, mask1 j hj, Bool.and_comm]; rfl
  case control => rw [State.specialRead, BitVec.getLsbD_and, mask2 j hj, Bool.and_comm]; rfl

/-! ### The register file (R23, R24, R51) -/

theorem clearBit0_eq_self_iff (v : Word) : clearBit0 v = v ↔ v.getLsbD 0 = false := by
  constructor
  · intro h
    rw [← h, getLsbD_clearBit0]
    rfl
  · intro h
    apply BitVec.eq_of_getLsbD_eq
    intro j _
    rw [getLsbD_clearBit0]
    by_cases hj : j = 0
    · rw [hj, h]
      rfl
    · simp [hj]

/-- Settles O14: register 15 reads 4 above what a write of it stores, with bit 0 cleared. -/
theorem registerFileReadAndWriteRules : Obligations.RegisterFileReadAndWriteRules := by
  unfold Obligations.RegisterFileReadAndWriteRules
  intro s i v
  have hpc : (s.writeReg pcIndex v).readReg pcIndex = clearBit0 v + 4#32 := by
    rw [State.readReg_pc, State.pc, State.stored_writeReg, if_pos rfl, if_pos rfl]
  refine ⟨?read, ?write, ?taken, ?others, s.writeReg_flags i v, s.writeReg_special i v, s.writeReg_mem i v,
    s.writeReg_run i v, hpc, ?iff⟩
  case read =>
    by_cases h : i = 15#4
    · rw [if_pos h, h]
      exact s.readReg_pc
    · rw [if_neg h]
      exact s.readReg_of_ne_pcIndex h
  case write => exact (s.stored_writeReg i i v).trans (if_pos rfl)
  case taken => by_cases h : i = 15#4 <;> simp [State.writeReg_branchTaken, pcIndex, h]
  case others =>
    intro j hj
    rw [s.stored_writeReg, if_neg hj]
  case iff =>
    change (s.writeReg pcIndex v).readReg pcIndex = v + 4#32 ↔ _
    rw [hpc, BitVec.add_left_inj, clearBit0_eq_self_iff]

end Sys2Proof.Machine
end

section
/-! Words, halfwords and bytes of memory, what a fetch reads, and which instructions write memory
(spec/20_memory.md R63 to R72, R81). -/

namespace Sys2Proof.Machine

/-! ### Little-endian values (R64, R67) -/

theorem halfOfBytes_eq_append (low high : Byte) : halfOfBytes low high = high ++ low := by
  rw [← BitVec.setWidth_eq (high ++ low), BitVec.setWidth_append_eq_shiftLeft_setWidth_or]
  rfl

theorem wordOfBytes_eq_append (b0 b1 b2 b3 : Byte) : wordOfBytes b0 b1 b2 b3 = b3 ++ b2 ++ b1 ++ b0 := by
  rw [← BitVec.setWidth_eq (b3 ++ b2 ++ b1 ++ b0), BitVec.setWidth_append_append_append_eq_shiftLeft_setWidth_or]
  rfl

theorem toNat_append_eq_add {m n : Nat} (x : BitVec m) (y : BitVec n) :
    (x ++ y).toNat = 2 ^ n * x.toNat + y.toNat := by
  rw [BitVec.toNat_append, ← Nat.shiftLeft_add_eq_or_of_lt y.isLt, Nat.shiftLeft_eq, Nat.mul_comm]

theorem toNat_wordOfBytes (b0 b1 b2 b3 : Byte) :
    (wordOfBytes b0 b1 b2 b3).toNat = b0.toNat + 256 * b1.toNat + 65536 * b2.toNat + 16777216 * b3.toNat := by
  simp only [wordOfBytes_eq_append, toNat_append_eq_add]
  omega

/-- A field of a word with the byte below it. -/
theorem extractLsb'_append_byte (v : Word) (k n : Nat) :
    v.extractLsb' (k + 8) n ++ v.extractLsb' k 8 = v.extractLsb' k (n + 8) :=
  BitVec.extractLsb'_append_extractLsb'_eq_extractLsb' rfl

theorem halfOfBytes_extractLsb' (v : Word) (k : Nat) :
    halfOfBytes (v.extractLsb' k 8) (v.extractLsb' (k + 8) 8) = v.extractLsb' k 16 := by
  rw [halfOfBytes_eq_append, extractLsb'_append_byte]

theorem wordOfBytes_extractLsb' (v : Word) :
    wordOfBytes (v.extractLsb' 0 8) (v.extractLsb' 8 8) (v.extractLsb' 16 8) (v.extractLsb' 24 8) = v := by
  rw [wordOfBytes_eq_append, extractLsb'_append_byte v 16, extractLsb'_append_byte v 8, extractLsb'_append_byte v 0]
  exact BitVec.extractLsb'_eq_self

/-! ### What is read after a word is stored (R65, R68, R81) -/

theorem State.readHalf_writeWord_low (s : State) (addr v : Word) :
    (s.writeWord addr v).readHalf addr.toNat = v.extractLsb' 0 16 := by
  rw [← halfOfBytes_extractLsb']
  simp [State.readHalf, State.readByte_writeWord]

theorem State.readHalf_writeWord_high (s : State) (addr v : Word) :
    (s.writeWord addr v).readHalf (addr.toNat + 2) = v.extractLsb' 16 16 := by
  rw [← halfOfBytes_extractLsb']
  simp [State.readHalf, State.readByte_writeWord]

theorem State.readWord_writeWord (s : State) (addr v : Word) : (s.writeWord addr v).readWord addr = v := by
  simpa [State.readWord, State.readByte_writeWord] using wordOfBytes_extractLsb' v

theorem State.keepsMemoryOutside_writeWord (s : State) (addr v : Word) :
    KeepsMemoryOutside s (s.writeWord addr v) [addr] := by
  intro a ha
  exact s.readByte_writeWords_of_outside [(addr, v)] a (by simpa using ha)

theorem haltsWith_raise (c : HaltCause) (s : State) : HaltsWith c s (raise c s) :=
  ⟨_, rfl, rfl, rfl, rfl, rfl, rfl, rfl⟩

theorem access_of_inRange {addr : Word} (h : inRange addr = true) (act : Host.Outcome State Fault Refusal)
    (s : State) : access addr act s = act :=
  if_pos h

theorem access_of_not_inRange {addr : Word} (h : inRange addr = false) (act : Host.Outcome State Fault Refusal)
    (s : State) : access addr act s = raise (.boundsViolation addr) s := by
  rw [access, h]
  rfl

/-- Settles O15: the bytes after a store are those of `State.readByte_writeWord`, and the four put together are
the word. -/
theorem wordAccessIsLittleEndianLocalAndBounded : Obligations.WordAccessIsLittleEndianLocalAndBounded := by
  unfold Obligations.WordAccessIsLittleEndianLocalAndBounded
  intro s addr v
  refine ⟨toNat_wordOfBytes _ _ _ _, ?byte0, ?byte1, ?byte2, ?byte3, s.readWord_writeWord addr v,
    s.keepsMemoryOutside_writeWord addr v, ?inside, ?outside⟩
  case byte0 | byte1 | byte2 | byte3 => simp [State.readByte_writeWord]
  case inside => exact fun act h => access_of_inRange (inRange_of_le h) act s
  case outside =>
    intro act h
    rw [access_of_not_inRange ((inRange_eq_false_iff addr).2 h)]
    exact haltsWith_raise _ s

/-- A fetch in range answers the record of its two halfwords. -/
theorem State.decodeAt_of_decodeHalves {s : State} {addr : Word} (ha : inRange addr = true) {i : Instr}
    (h : decodeHalves (s.readHalf addr.toNat) (s.readHalf (addr.toNat + 2)) = some i) : s.decodeAt addr = .ok i := by
  simp [State.decodeAt, ha, h]

/-- Settles O16: the store leaves the PC, and the halfwords there are those of the word. -/
theorem fetchSeesAStoredWord : Obligations.FetchSeesAStoredWord := by
  unfold Obligations.FetchSeesAStoredWord
  intro s v i hpc hi
  have hfetch : (s.writeWord s.pc v).fetch = (s.writeWord s.pc v).decodeAt s.pc :=
    congrArg (State.decodeAt _) (s.writeWord_stored s.pc v pcIndex)
  rw [hfetch]
  refine State.decodeAt_of_decodeHalves (inRange_of_le hpc) ?_
  rw [State.readHalf_writeWord_low, State.readHalf_writeWord_high, hi]

/-! ### Which instructions write memory (R72) -/

theorem State.writeRegs_mem (ws : List (BitVec 4 × Word)) (s : State) : (s.writeRegs ws).mem = s.mem := by
  induction ws generalizing s with
  | nil => rfl
  | cons w ws ih => rw [State.writeRegs, ih, State.writeReg_mem]

theorem State.updateFlags_mem (s : State) (g : Option Flags) : (s.updateFlags g).mem = s.mem := by
  cases g <;> rfl

theorem Effect.apply_mem (e : Effect) (s : State) : (e.apply s).mem = (s.writeWords e.stores).mem := by
  rw [Effect.apply, State.updateFlags_mem, State.writeRegs_mem]

/-- Only STR, PUSH and STM have words of memory in their effect. -/
theorem effect_stores_eq_nil {i : Instr} (h : storesMemory i = false) (s : State) : (effect i s).stores = [] := by
  cases i with
  | strSp | push | stm => cases h
  | _ => rfl

/-- Settles O55: a halt keeps memory, and so does an effect without stores. -/
theorem memoryChangesOnlyInStores : Obligations.MemoryChangesOnlyInStores := by
  unfold Obligations.MemoryChangesOnlyInStores
  intro i s t hi h
  rcases exec_next h with ⟨c, hc⟩ | rfl
  · rw [raise_next hc]
  · rw [State.advance_mem, Effect.apply_mem, effect_stores_eq_nil hi]
    rfl

end Sys2Proof.Machine
end

section
/-! The decoder port and the encoder that inverts it (spec/30_encoding.md R90 to R122). A record's halfwords are its
match value with every field at its place, so one set of rules about fields serves both directions: what a field of an
encoded halfword reads, and how a halfword is put together again from the fields the decoder looked at. -/

namespace Sys2Proof

/-! ### Fields of a halfword (R96) -/

theorem place_zero {n : Nat} (f : BitVec n) : place 0 f = f.setWidth 16 := BitVec.shiftLeft_zero _

theorem getLsbD_place {n : Nat} (lo : Nat) (f : BitVec n) {j : Nat} (hj : j < 16) :
    (place lo f).getLsbD j = (decide (lo ≤ j) && f.getLsbD (j - lo)) := by
  have hlt : j - lo < 16 := by omega
  rw [place, BitVec.getLsbD_shiftLeft, BitVec.getLsbD_setWidth]
  simp only [hj, hlt, decide_true, Bool.true_and, ← decide_not, Nat.not_lt]

@[simp] theorem extractLsb'_place_same {n lo : Nat} (f : BitVec n) (h : lo + n ≤ 16) :
    (place lo f).extractLsb' lo n = f := by
  apply BitVec.eq_of_getLsbD_eq
  intro j hj
  simp [getLsbD_place lo f (show lo + j < 16 by omega), hj]

/-- The bits below a field are clear. -/
@[simp] theorem extractLsb'_place_of_le {m n lo lo' : Nat} (f : BitVec n) (h : lo' + m ≤ lo) (hm : lo' + m ≤ 16) :
    (place lo f).extractLsb' lo' m = 0#m := by
  apply BitVec.eq_of_getLsbD_eq
  intro j hj
  simp [getLsbD_place lo f (show lo' + j < 16 by omega), show ¬ lo ≤ lo' + j by omega]

/-- The bits above a field are clear. -/
@[simp] theorem extractLsb'_place_of_ge {m n lo lo' : Nat} (f : BitVec n) (h : lo + n ≤ lo') (hm : lo' + m ≤ 16) :
    (place lo f).extractLsb' lo' m = 0#m := by
  apply BitVec.eq_of_getLsbD_eq
  intro j hj
  simp [getLsbD_place lo f (show lo' + j < 16 by omega), BitVec.getLsbD_of_ge f (lo' + j - lo) (by omega)]

/-- The bits of a field `n` bits wide whose lowest bit stands at bit `lo`. -/
def fieldMask (lo n : Nat) : Half := place lo (BitVec.allOnes n)

/-- A field read and put back where it stood is the halfword with every other bit cleared. -/
theorem place_extractLsb' (h : Half) (lo n : Nat) : place lo (h.extractLsb' lo n) = h &&& fieldMask lo n := by
  apply BitVec.eq_of_getLsbD_eq
  intro j hj
  rw [BitVec.getLsbD_and, fieldMask, getLsbD_place _ _ hj, getLsbD_place _ _ hj, BitVec.getLsbD_extractLsb',
    BitVec.getLsbD_allOnes]
  by_cases hlo : lo ≤ j
  · simp [hlo, Bool.and_comm]
  · simp [hlo]

/-- A field keeps its bits under a mask that covers it. -/
theorem place_and_eq_self {n lo : Nat} (f : BitVec n) {m : Half} (h : lo + n ≤ 16)
    (hm : fieldMask lo n &&& m = fieldMask lo n) : place lo f &&& m = place lo f := by
  have hp : place lo f = place lo f &&& fieldMask lo n := by rw [← place_extractLsb', extractLsb'_place_same f h]
  rw [hp, BitVec.and_assoc, hm]

theorem eq_ofNat_of_toNat_eq {n k : Nat} {x : BitVec n} (h : x.toNat = k) : x = BitVec.ofNat n k := by
  rw [← h, BitVec.ofNat_toNat, BitVec.setWidth_eq]

/-! ### Match and mask (R96) -/

/-- The halfword `h` has the match value `c` under the mask `m`. -/
def Matches (h m c : Half) : Prop := h &&& m = c

/-- A field the decoder has compared with a number. -/
theorem Matches.of_toNat {h : Half} {lo n k : Nat} (e : (h.extractLsb' lo n).toNat = k) :
    Matches h (fieldMask lo n) (place lo (BitVec.ofNat n k)) := by
  rw [Matches, ← place_extractLsb', eq_ofNat_of_toNat_eq e]

theorem Matches.and {h m m' c c' : Half} (e : Matches h m c) (e' : Matches h m' c') :
    Matches h (m ||| m') (c ||| c') :=
  BitVec.and_or_distrib_left.trans (congrArg₂ _ e e')

/-- A field that lies inside the mask is read from the match value. -/
theorem Matches.extractLsb'_eq {h m c : Half} (e : Matches h m c) (lo n : Nat)
    (hm : m.extractLsb' lo n = BitVec.allOnes n) : h.extractLsb' lo n = c.extractLsb' lo n := by
  rw [← e, BitVec.extractLsb'_and, hm, BitVec.and_allOnes]

/-- The match value with the bits outside the mask is the whole halfword. -/
theorem Matches.or_and_eq {h m c r : Half} (e : Matches h m c) (hr : m ||| r = BitVec.allOnes 16) :
    c ||| (h &&& r) = h := by
  rw [← e, ← BitVec.and_or_distrib_left, hr, BitVec.and_allOnes]

theorem Matches.singleton_eq {h m c r : Half} (e : Matches h m c) (hr : m ||| r = BitVec.allOnes 16) :
    [c ||| (h &&& r)] = [h] := by
  rw [e.or_and_eq hr]

theorem extractLsb'_eq_iff_matches {h : Half} {lo n : Nat} (f : BitVec n) (hn : lo + n ≤ 16) :
    h.extractLsb' lo n = f ↔ Matches h (fieldMask lo n) (place lo f) := by
  rw [Matches, ← place_extractLsb']
  constructor
  · exact congrArg _
  · intro e
    rw [← extractLsb'_place_same (h.extractLsb' lo n) hn, e, extractLsb'_place_same f hn]

/-! ### Scaled values (R97) -/

theorem fitsUnsigned_setWidth {n : Nat} (x : BitVec n) (h : n ≤ 32) : fitsUnsigned n (x.setWidth 32) = true := by
  simp [fitsUnsigned, h]

theorem setWidth_signExtend {n : Nat} (x : BitVec n) (h : n ≤ 32) : (x.signExtend 32).setWidth n = x := by
  apply BitVec.eq_of_getLsbD_eq
  intro j hj
  rw [BitVec.getLsbD_setWidth, BitVec.getLsbD_signExtend]
  simp [hj, show j < 32 by omega]

theorem fitsSigned_signExtend {n : Nat} (x : BitVec n) (h : n ≤ 32) : fitsSigned n (x.signExtend 32) = true := by
  simp [fitsSigned, setWidth_signExtend x h]

theorem signExtend_append_zero {n k : Nat} (x : BitVec n) (hn : n ≠ 0) :
    (x ++ 0#k).signExtend 32 = x.signExtend 32 <<< k := by
  apply BitVec.eq_of_getLsbD_eq
  intro j hj
  rw [BitVec.getLsbD_signExtend, BitVec.getLsbD_shiftLeft, BitVec.getLsbD_signExtend, BitVec.getLsbD_append,
    BitVec.msb_append, if_neg hn]
  by_cases hk : j < k
  · simp [hk, show j < n + k by omega]
  · simp [hk, hj, show j - k < 32 by omega, show j < n + k ↔ j - k < n by omega]

/-- A multiple of `2 ^ k`, scaled down and up again. -/
theorem extractLsb'_append_zero {v : Word} {n k : Nat} (hk : n + k ≤ 32) (h : v.setWidth k = 0#k) :
    v.extractLsb' k n ++ 0#k = v.setWidth (n + k) := by
  rw [BitVec.setWidth_eq_extractLsb' (by omega)] at h
  rw [← h, BitVec.setWidth_eq_extractLsb' hk]
  exact BitVec.extractLsb'_append_extractLsb'_eq_extractLsb' (Nat.zero_add k).symm

theorem extractLsb'_of_setWidth_eq_append {v : Word} {n k : Nat} {x : BitVec n} (h : v.setWidth (n + k) = x ++ 0#k) :
    v.extractLsb' k n = x := by
  rw [← BitVec.extractLsb'_setWidth_of_le (Nat.add_comm k n).le, h, BitVec.extractLsb'_append_eq_left]

theorem setWidth_of_setWidth_eq_append {v : Word} {n k : Nat} {x : BitVec n} (h : v.setWidth (n + k) = x ++ 0#k) :
    v.setWidth k = 0#k := by
  rw [← BitVec.setWidth_setWidth_of_le v (Nat.le_add_left k n), h, BitVec.setWidth_append_eq_right]

/-! ### The immediates the decoder makes: well-formed, and what the encoder reads back (R97) -/

@[simp] theorem fitsUnsigned_immFromImm3 (x : BitVec 3) : fitsUnsigned 3 (immFromImm3 x) = true :=
  fitsUnsigned_setWidth x (by decide)
@[simp] theorem setWidth_immFromImm3 (x : BitVec 3) : (immFromImm3 x).setWidth 3 = x :=
  BitVec.setWidth_setWidth_of_le x (by decide)

@[simp] theorem fitsUnsigned_immFromImm8 (x : BitVec 8) : fitsUnsigned 8 (immFromImm8 x) = true :=
  fitsUnsigned_setWidth x (by decide)
@[simp] theorem setWidth_immFromImm8 (x : BitVec 8) : (immFromImm8 x).setWidth 8 = x :=
  BitVec.setWidth_setWidth_of_le x (by decide)

theorem setWidth_immFromImm8Words (x : BitVec 8) : (immFromImm8Words x).setWidth (8 + 2) = x ++ 0#2 :=
  BitVec.setWidth_setWidth_of_le _ (by decide)
@[simp] theorem fitsUnsigned_immFromImm8Words (x : BitVec 8) : fitsUnsigned 10 (immFromImm8Words x) = true :=
  fitsUnsigned_setWidth _ (by decide)
@[simp] theorem isWordMultiple_immFromImm8Words (x : BitVec 8) : isWordMultiple (immFromImm8Words x) = true :=
  beq_of_eq (setWidth_of_setWidth_eq_append (setWidth_immFromImm8Words x))
@[simp] theorem extractLsb'_immFromImm8Words (x : BitVec 8) : (immFromImm8Words x).extractLsb' 2 8 = x :=
  extractLsb'_of_setWidth_eq_append (setWidth_immFromImm8Words x)

theorem setWidth_immFromImm7Words (x : BitVec 7) : (immFromImm7Words x).setWidth (7 + 2) = x ++ 0#2 :=
  BitVec.setWidth_setWidth_of_le _ (by decide)
@[simp] theorem fitsUnsigned_immFromImm7Words (x : BitVec 7) : fitsUnsigned 9 (immFromImm7Words x) = true :=
  fitsUnsigned_setWidth _ (by decide)
@[simp] theorem isWordMultiple_immFromImm7Words (x : BitVec 7) : isWordMultiple (immFromImm7Words x) = true :=
  beq_of_eq (setWidth_of_setWidth_eq_append (setWidth_immFromImm7Words x))
@[simp] theorem extractLsb'_immFromImm7Words (x : BitVec 7) : (immFromImm7Words x).extractLsb' 2 7 = x :=
  extractLsb'_of_setWidth_eq_append (setWidth_immFromImm7Words x)

theorem setWidth_immFromBranch8 (x : BitVec 8) : (immFromBranch8 x).setWidth (8 + 1) = x ++ 0#1 :=
  setWidth_signExtend _ (by decide)
@[simp] theorem fitsSigned_immFromBranch8 (x : BitVec 8) : fitsSigned 9 (immFromBranch8 x) = true :=
  fitsSigned_signExtend _ (by decide)
@[simp] theorem isEven_immFromBranch8 (x : BitVec 8) : isEven (immFromBranch8 x) = true :=
  beq_of_eq (setWidth_of_setWidth_eq_append (setWidth_immFromBranch8 x))
@[simp] theorem extractLsb'_immFromBranch8 (x : BitVec 8) : (immFromBranch8 x).extractLsb' 1 8 = x :=
  extractLsb'_of_setWidth_eq_append (setWidth_immFromBranch8 x)

theorem setWidth_immFromBranch11 (x : BitVec 11) : (immFromBranch11 x).setWidth (11 + 1) = x ++ 0#1 :=
  setWidth_signExtend _ (by decide)
@[simp] theorem fitsSigned_immFromBranch11 (x : BitVec 11) : fitsSigned 12 (immFromBranch11 x) = true :=
  fitsSigned_signExtend _ (by decide)
@[simp] theorem isEven_immFromBranch11 (x : BitVec 11) : isEven (immFromBranch11 x) = true :=
  beq_of_eq (setWidth_of_setWidth_eq_append (setWidth_immFromBranch11 x))
@[simp] theorem extractLsb'_immFromBranch11 (x : BitVec 11) : (immFromBranch11 x).extractLsb' 1 11 = x :=
  extractLsb'_of_setWidth_eq_append (setWidth_immFromBranch11 x)

/-- `J = NOT(I) XOR S` undoes `I = NOT(J XOR S)`. -/
theorem not_not_xor_xor_self {n : Nat} (j s : BitVec n) : ~~~(~~~(j ^^^ s)) ^^^ s = j := by
  rw [BitVec.not_not, BitVec.xor_assoc, BitVec.xor_self, BitVec.xor_zero]

/-- `I = NOT(J XOR S)` undoes `J = NOT(I) XOR S`. -/
theorem not_xor_xor_self {n : Nat} (i s : BitVec n) : ~~~(~~~i ^^^ s ^^^ s) = i := by
  rw [BitVec.xor_assoc, BitVec.xor_self, BitVec.xor_zero, BitVec.not_not]

theorem setWidth_immFromBl (s j1 j2 : BitVec 1) (imm10 : BitVec 10) (imm11 : BitVec 11) :
    (immFromBl s j1 j2 imm10 imm11).setWidth (24 + 1) =
      (s ++ ~~~(j1 ^^^ s) ++ ~~~(j2 ^^^ s) ++ imm10 ++ imm11) ++ 0#1 :=
  setWidth_signExtend _ (by decide)
@[simp] theorem fitsSigned_immFromBl (s j1 j2 : BitVec 1) (imm10 : BitVec 10) (imm11 : BitVec 11) :
    fitsSigned 25 (immFromBl s j1 j2 imm10 imm11) = true :=
  fitsSigned_signExtend _ (by decide)
@[simp] theorem isEven_immFromBl (s j1 j2 : BitVec 1) (imm10 : BitVec 10) (imm11 : BitVec 11) :
    isEven (immFromBl s j1 j2 imm10 imm11) = true :=
  beq_of_eq (setWidth_of_setWidth_eq_append (setWidth_immFromBl s j1 j2 imm10 imm11))

theorem encodeBl_immFromBl (s j1 j2 : BitVec 1) (imm10 : BitVec 10) (imm11 : BitVec 11) :
    encodeBl (immFromBl s j1 j2 imm10 imm11) =
      [0xF000#16 ||| place 10 s ||| place 0 imm10, 0xD000#16 ||| place 13 j1 ||| place 11 j2 ||| place 0 imm11] := by
  have read (lo n : Nat) (h : lo + n ≤ 25) : (immFromBl s j1 j2 imm10 imm11).extractLsb' lo n =
      (s ++ ~~~(j1 ^^^ s) ++ ~~~(j2 ^^^ s) ++ imm10 ++ imm11 ++ 0#1).extractLsb' lo n := by
    rw [← setWidth_immFromBl, BitVec.extractLsb'_setWidth_of_le h]
  simp (disch := decide) only [encodeBl, read, BitVec.extractLsb'_append_eq_of_le,
    BitVec.extractLsb'_append_eq_of_add_le, Nat.reduceSub, BitVec.extractLsb'_eq_self, not_not_xor_xor_self]

/-! ### A well-formed immediate is made again from the bits the encoder keeps (R97, R122) -/

theorem immFromImm3_setWidth {v : Word} (h : fitsUnsigned 3 v = true) : immFromImm3 (v.setWidth 3) = v := eq_of_beq h

theorem immFromImm8_setWidth {v : Word} (h : fitsUnsigned 8 v = true) : immFromImm8 (v.setWidth 8) = v := eq_of_beq h

theorem immFromImm8Words_extractLsb' {v : Word} (h : fitsUnsigned 10 v = true) (h4 : isWordMultiple v = true) :
    immFromImm8Words (v.extractLsb' 2 8) = v := by
  rw [immFromImm8Words, extractLsb'_append_zero (by decide) (eq_of_beq h4)]
  exact eq_of_beq h

theorem immFromImm7Words_extractLsb' {v : Word} (h : fitsUnsigned 9 v = true) (h4 : isWordMultiple v = true) :
    immFromImm7Words (v.extractLsb' 2 7) = v := by
  rw [immFromImm7Words, extractLsb'_append_zero (by decide) (eq_of_beq h4)]
  exact eq_of_beq h

theorem immFromBranch8_extractLsb' {v : Word} (h : fitsSigned 9 v = true) (h2 : isEven v = true) :
    immFromBranch8 (v.extractLsb' 1 8) = v := by
  rw [immFromBranch8, extractLsb'_append_zero (by decide) (eq_of_beq h2)]
  exact eq_of_beq h

theorem immFromBranch11_extractLsb' {v : Word} (h : fitsSigned 12 v = true) (h2 : isEven v = true) :
    immFromBranch11 (v.extractLsb' 1 11) = v := by
  rw [immFromBranch11, extractLsb'_append_zero (by decide) (eq_of_beq h2)]
  exact eq_of_beq h

theorem immFromBl_extractLsb' {v : Word} (h : fitsSigned 25 v = true) (h2 : isEven v = true) :
    immFromBl (v.extractLsb' 24 1) (~~~(v.extractLsb' 23 1) ^^^ v.extractLsb' 24 1)
      (~~~(v.extractLsb' 22 1) ^^^ v.extractLsb' 24 1) (v.extractLsb' 12 10) (v.extractLsb' 1 11) = v := by
  have join (lo m n : Nat) : v.extractLsb' (lo + n) m ++ v.extractLsb' lo n = v.extractLsb' lo (m + n) :=
    BitVec.extractLsb'_append_extractLsb'_eq_extractLsb' rfl
  rw [immFromBl, not_xor_xor_self, not_xor_xor_self, join 23 1 1, join 22 2 1, join 12 3 10, join 1 13 11,
    extractLsb'_append_zero (by decide) (eq_of_beq h2)]
  exact eq_of_beq h

/-! ### Register lists and the split register number (R98, R108) -/

theorem listWithin_iff (allowed r : BitVec 16) : listWithin allowed r = true ↔ r &&& allowed = r := by
  constructor
  · intro h
    have h0 : r &&& ~~~allowed = 0#16 := eq_of_beq h
    calc r &&& allowed = r &&& allowed ||| r &&& ~~~allowed := by rw [h0, BitVec.or_zero]
      _ = r := by rw [← BitVec.and_or_distrib_left, BitVec.or_not_self, BitVec.and_allOnes]
  · intro h
    rw [← h]
    apply beq_of_eq
    rw [BitVec.and_assoc, BitVec.and_not_self]
    exact BitVec.and_zero

theorem lowRegisters_eq_place (list : BitVec 8) : lowRegisters list = place 0 list := (place_zero list).symm

theorem pushRegisters_eq_place (m : BitVec 1) (list : BitVec 8) :
    pushRegisters m list = place 14 m ||| place 0 list := by
  rw [place_zero]
  rfl

@[simp] theorem listWithin_lowRegisters (list : BitVec 8) : listWithin lowList (lowRegisters list) = true := by
  rw [listWithin_iff, lowRegisters_eq_place, place_and_eq_self list (by decide) (by decide)]

@[simp] theorem listWithin_pushRegisters (m : BitVec 1) (list : BitVec 8) :
    listWithin pushList (pushRegisters m list) = true := by
  rw [listWithin_iff, pushRegisters_eq_place, BitVec.and_comm, BitVec.and_or_distrib_left, BitVec.and_comm,
    BitVec.and_comm _ (place 0 list), place_and_eq_self m (by decide) (by decide),
    place_and_eq_self list (by decide) (by decide)]

@[simp] theorem setWidth_lowRegisters (list : BitVec 8) : (lowRegisters list).setWidth 8 = list :=
  BitVec.setWidth_setWidth_of_le list (by decide)

@[simp] theorem setWidth_pushRegisters (m : BitVec 1) (list : BitVec 8) : (pushRegisters m list).setWidth 8 = list := by
  rw [pushRegisters_eq_place, BitVec.setWidth_eq_extractLsb' (by decide)]
  simp [BitVec.extractLsb'_or]

@[simp] theorem extractLsb'_pushRegisters (m : BitVec 1) (list : BitVec 8) :
    (pushRegisters m list).extractLsb' 14 1 = m := by
  rw [pushRegisters_eq_place]
  simp [BitVec.extractLsb'_or]

theorem lowRegisters_of_listWithin {r : BitVec 16} (h : listWithin lowList r = true) :
    lowRegisters (r.setWidth 8) = r := by
  rw [lowRegisters_eq_place, BitVec.setWidth_eq_extractLsb' (by decide), place_extractLsb']
  exact (listWithin_iff _ _).1 h

theorem pushRegisters_of_listWithin {r : BitVec 16} (h : listWithin pushList r = true) :
    pushRegisters (r.extractLsb' 14 1) (r.setWidth 8) = r := by
  rw [pushRegisters_eq_place, BitVec.setWidth_eq_extractLsb' (by decide), place_extractLsb', place_extractLsb',
    ← BitVec.and_or_distrib_left]
  exact (listWithin_iff _ _).1 h

theorem highRegister_eq_append (d : BitVec 1) (rd3 : BitVec 3) : highRegister d rd3 = d ++ rd3 := by
  rw [← BitVec.setWidth_eq (d ++ rd3), BitVec.setWidth_append_eq_shiftLeft_setWidth_or]
  rfl

@[simp] theorem extractLsb'_highRegister_high (d : BitVec 1) (rd3 : BitVec 3) :
    (highRegister d rd3).extractLsb' 3 1 = d := by
  rw [highRegister_eq_append, BitVec.extractLsb'_append_eq_left]

@[simp] theorem extractLsb'_highRegister_low (d : BitVec 1) (rd3 : BitVec 3) :
    (highRegister d rd3).extractLsb' 0 3 = rd3 := by
  rw [highRegister_eq_append, BitVec.extractLsb'_append_eq_right]

@[simp] theorem highRegister_extractLsb' (rd : BitVec 4) :
    highRegister (rd.extractLsb' 3 1) (rd.extractLsb' 0 3) = rd := by
  rw [highRegister_eq_append]
  exact (BitVec.extractLsb'_append_extractLsb'_eq_extractLsb' rfl).trans BitVec.extractLsb'_eq_self

/-! ### Conditions, special registers and data-processing operations by number (R99, R107; spec/10_state.md R35) -/

theorem Cond.ofBranchField_code {c : Cond} (h : c ≠ .al) : Cond.ofBranchField c.code = some c := by
  cases c with
  | al => exact absurd rfl h
  | _ => rfl

theorem Cond.code_of_ofBranchField {f : BitVec 4} {c : Cond} (h : Cond.ofBranchField f = some c) :
    c ≠ .al ∧ c.code = f := by
  revert h
  fun_cases Cond.ofBranchField f with
  | case15 => exact nofun
  | _ hf =>
    rintro ⟨⟩
    exact ⟨nofun, (BitVec.eq_of_toNat_eq hf).symm⟩

theorem Cond.ofBranchField_eq_none_iff (f : BitVec 4) : Cond.ofBranchField f = none ↔ 14 ≤ f.toNat := by
  fun_cases Cond.ofBranchField f with
  | case15 =>
    simp only [imp_false, true_iff] at *
    omega
  | _ hf => simp [hf]

@[simp] theorem SpecialReg.ofSysm_sysm (r : SpecialReg) : SpecialReg.ofSysm r.sysm = some r := by
  cases r <;> rfl

theorem SpecialReg.sysm_of_ofSysm {n : BitVec 8} {r : SpecialReg} (h : SpecialReg.ofSysm n = some r) :
    r.sysm = n := by
  revert h
  fun_cases SpecialReg.ofSysm n with
  | case9 => exact nofun
  | _ hn =>
    rintro ⟨⟩
    exact (BitVec.eq_of_toNat_eq hn).symm

@[simp] theorem decodeDp_wf (op : BitVec 4) (rm rdn : BitVec 3) : (decodeDp op rm rdn).wf = true := by
  fun_cases decodeDp op rm rdn <;> rfl

theorem encodeHalves_decodeDp (op : BitVec 4) (rm rdn : BitVec 3) :
    encodeHalves (decodeDp op rm rdn) = encodeDp op rm rdn := by
  obtain ⟨⟨k, hk⟩⟩ := op
  interval_cases k <;> rfl

/-- Settles O8: each number is its own arm of the decoder. -/
theorem dataProcessingOperationsByNumber : Obligations.DataProcessingOperationsByNumber := by
  unfold Obligations.DataProcessingOperationsByNumber
  intro rm rdn
  rfl

/-! ### Short forms: decode of encode (R101 to R114) -/

/-- The two rows of B cond in the table of R101 differ in the highest bit of the condition. -/
theorem toNat_extractLsb'_11_5_div_two (h : Half) :
    (h.extractLsb' 11 5).toNat / 2 = (h.extractLsb' 12 4).toNat := by
  simp only [BitVec.extractLsb'_toNat, Nat.shiftRight_eq_div_pow]
  omega

theorem decodeShort_of_bCond {h : Half} (e : h.extractLsb' 12 4 = 13#4) :
    decodeShort h =
      (Cond.ofBranchField (h.extractLsb' 8 4)).map fun c => .bCond c (immFromBranch8 (h.extractLsb' 0 8)) := by
  have h4 : (h.extractLsb' 11 5).toNat / 2 = 13 := by
    rw [toNat_extractLsb'_11_5_div_two, e]
    rfl
  have h5 : (h.extractLsb' 11 5).toNat = 26 ∨ (h.extractLsb' 11 5).toNat = 27 := by omega
  rcases h5 with h5 | h5 <;> simp [decodeShort, h5]

theorem decodeShort_encodeDp (op : BitVec 4) (rm rdn : BitVec 3) :
    decodeShort (0x4000#16 ||| place 6 op ||| place 3 rm ||| place 0 rdn) = some (decodeDp op rm rdn) := by
  simp [decodeShort, BitVec.extractLsb'_or]

/-- A well-formed record of one halfword is what the decoder makes of that halfword. -/
theorem decodeShort_of_encodeHalves {i : Instr} {h : Half} (hi : i.wf = true) (he : encodeHalves i = [h]) :
    decodeShort h = some i := by
  cases i with
  | bl | msr | mrs => cases he
  | bCond c imm32 =>
    obtain ⟨⟨hc, hf⟩, h2⟩ : (c ≠ .al ∧ _) ∧ _ := by simpa [Instr.wf] using hi
    cases he
    rw [decodeShort_of_bCond]
    · simp [BitVec.extractLsb'_or, Cond.ofBranchField_code hc, immFromBranch8_extractLsb' hf h2]
    · simp [BitVec.extractLsb'_or]
  | addReg | movReg | bx | bkpt =>
    cases he
    simp [decodeShort, BitVec.extractLsb'_or]
  | addImm3 =>
    cases he
    simp [decodeShort, BitVec.extractLsb'_or, immFromImm3_setWidth hi]
  | movImm | cmpImm | addImm8 =>
    cases he
    simp [decodeShort, BitVec.extractLsb'_or, immFromImm8_setWidth hi]
  | push =>
    cases he
    simp [decodeShort, BitVec.extractLsb'_or, pushRegisters_of_listWithin hi]
  | stm | ldm =>
    cases he
    simp [decodeShort, BitVec.extractLsb'_or, lowRegisters_of_listWithin hi]
  | ldrLit | strSp =>
    obtain ⟨hf, h4⟩ := Bool.and_eq_true_iff.1 hi
    cases he
    simp [decodeShort, BitVec.extractLsb'_or, immFromImm8Words_extractLsb' hf h4]
  | addSp | subSp =>
    obtain ⟨hf, h4⟩ := Bool.and_eq_true_iff.1 hi
    cases he
    simp [decodeShort, BitVec.extractLsb'_or, immFromImm7Words_extractLsb' hf h4]
  | b =>
    obtain ⟨hf, h2⟩ := Bool.and_eq_true_iff.1 hi
    cases he
    simp [decodeShort, BitVec.extractLsb'_or, immFromBranch11_extractLsb' hf h2]
  | _ rm rdn =>
    cases he
    exact decodeShort_encodeDp _ rm rdn

/-! ### Short forms: encode of decode -/

theorem toNat_eq_one_of_ne_zero {b : BitVec 1} (h : b.toNat ≠ 0) : b.toNat = 1 := by omega

/-- Branch by branch of R101, the fields the decoder compared are the match value and the fields it kept are the rest
of the halfword. -/
theorem wf_and_encodeHalves_of_decodeShort {h : Half} {i : Instr} (e : decodeShort h = some i) :
    i.wf = true ∧ encodeHalves i = [h] := by
  revert e
  fun_cases decodeShort h with
  | case3 | case10 | case11 | case16 | case18 | case20 | case26 => exact nofun
  | case4 h5 | case5 h5 | case6 h5 | case12 h5 | case13 h5 | case21 h5 | case22 h5 | case25 h5 =>
    rintro ⟨⟩
    refine ⟨by simp [Instr.wf], ?_⟩
    simp only [encodeHalves, setWidth_immFromImm8, extractLsb'_immFromImm8Words, setWidth_lowRegisters,
      extractLsb'_immFromBranch11, place_extractLsb', BitVec.or_assoc, ← BitVec.and_or_distrib_left]
    exact (Matches.of_toNat h5).singleton_eq (by decide)
  | case1 h5 h2 | case2 h5 h2 | case17 h5 h2 | case19 h5 h2 =>
    rintro ⟨⟩
    refine ⟨by simp [Instr.wf], ?_⟩
    simp only [encodeHalves, setWidth_immFromImm3, setWidth_pushRegisters, extractLsb'_pushRegisters,
      place_extractLsb', BitVec.or_assoc, ← BitVec.and_or_distrib_left]
    exact ((Matches.of_toNat h5).and (.of_toNat h2)).singleton_eq (by decide)
  | case7 h5 h1 =>
    rintro ⟨⟩
    refine ⟨decodeDp_wf _ _ _, ?_⟩
    simp only [encodeHalves_decodeDp, encodeDp, place_extractLsb', BitVec.or_assoc, ← BitVec.and_or_distrib_left]
    exact ((Matches.of_toNat h5).and (.of_toNat h1)).singleton_eq (by decide)
  | case8 h5 h2 h10 =>
    rintro ⟨⟩
    refine ⟨rfl, ?_⟩
    simp only [encodeHalves, extractLsb'_highRegister_high, extractLsb'_highRegister_low, place_extractLsb',
      BitVec.or_assoc, ← BitVec.and_or_distrib_left]
    exact (((Matches.of_toNat h5).and (.of_toNat (toNat_eq_one_of_ne_zero h10))).and
      (.of_toNat h2)).singleton_eq (by decide)
  | case9 h5 h2 h3 h1 h10 =>
    rintro ⟨⟩
    refine ⟨rfl, ?_⟩
    simp only [encodeHalves, place_extractLsb']
    exact (((((Matches.of_toNat h5).and (.of_toNat (toNat_eq_one_of_ne_zero h10))).and (.of_toNat h2)).and
      (.of_toNat h1)).and (.of_toNat h3)).singleton_eq (by decide)
  | case14 h5 h2 h1 | case15 h5 h2 h1 =>
    rintro ⟨⟩
    refine ⟨by simp [Instr.wf], ?_⟩
    simp only [encodeHalves, extractLsb'_immFromImm7Words, place_extractLsb']
    exact (((Matches.of_toNat h5).and (.of_toNat h2)).and (.of_toNat h1)).singleton_eq (by decide)
  | case23 h5 | case24 h5 =>
    have h4 : (h.extractLsb' 12 4).toNat = 13 := by rw [← toNat_extractLsb'_11_5_div_two, h5]
    rw [Option.map_eq_some_iff]
    rintro ⟨c, hc, rfl⟩
    obtain ⟨hal, hcode⟩ := Cond.code_of_ofBranchField hc
    refine ⟨by simp [Instr.wf, hal], ?_⟩
    simp only [encodeHalves, hcode, extractLsb'_immFromBranch8, place_extractLsb', BitVec.or_assoc,
      ← BitVec.and_or_distrib_left]
    exact (Matches.of_toNat h4).singleton_eq (by decide)

/-! ### Short forms and long forms (R92) -/

/-- Settles O4: the highest five bits compared as numbers. -/
theorem longFormIsTheThreePrefixes : Obligations.LongFormIsTheThreePrefixes := by
  unfold Obligations.LongFormIsTheThreePrefixes
  intro hw1
  have hlt := hw1.isLt
  simp only [isLongForm, Bool.or_eq_true, beq_iff_eq, ← BitVec.toNat_inj, BitVec.extractLsb'_toNat,
    Nat.shiftRight_eq_div_pow, BitVec.toNat_ofNat]
  omega

theorem decodeShort_eq_none_of_isLongForm {h : Half} (hl : isLongForm h = true) : decodeShort h = none := by
  simp only [isLongForm, Bool.or_eq_true, beq_iff_eq] at hl
  rcases hl with (h5 | h5) | h5 <;> simp [decodeShort, h5]

theorem isLongForm_of_decodeShort {h : Half} {i : Instr} (e : decodeShort h = some i) : isLongForm h = false := by
  by_contra hl
  rw [decodeShort_eq_none_of_isLongForm (Bool.eq_true_of_not_eq_false hl)] at e
  cases e

theorem decodeHalves_of_decodeShort {h : Half} {i : Instr} (e : decodeShort h = some i) (hw2 : Half) :
    decodeHalves h hw2 = some i := by
  rw [decodeHalves, isLongForm_of_decodeShort e, if_neg Bool.false_ne_true, e]

/-! ### Long forms (R115 to R117) -/

theorem isBl_iff_matches (hw1 hw2 : Half) :
    isBl hw1 hw2 = true ↔ Matches hw1 0xF800#16 0xF000#16 ∧ Matches hw2 0xD000#16 0xD000#16 := by
  simp only [isBl, Bool.and_eq_true, beq_iff_eq, and_assoc]
  refine and_congr (extractLsb'_eq_iff_matches _ (by decide)) ⟨fun ⟨h2, h1⟩ => ?_, fun e => ⟨?_, ?_⟩⟩
  · exact ((extractLsb'_eq_iff_matches _ (by decide)).1 h2).and ((extractLsb'_eq_iff_matches _ (by decide)).1 h1)
  · exact e.extractLsb'_eq 14 2 (by decide)
  · exact e.extractLsb'_eq 12 1 (by decide)

theorem isMsr_iff_matches (hw1 hw2 : Half) :
    isMsr hw1 hw2 = true ↔ Matches hw1 0xFFF0#16 0xF380#16 ∧ Matches hw2 0xFF00#16 0x8800#16 := by
  simp only [isMsr, Bool.and_eq_true, beq_iff_eq]
  exact and_congr (extractLsb'_eq_iff_matches _ (by decide)) (extractLsb'_eq_iff_matches _ (by decide))

theorem isMrs_iff_matches (hw1 hw2 : Half) :
    isMrs hw1 hw2 = true ↔ hw1 = 0xF3EF#16 ∧ Matches hw2 0xF000#16 0x8000#16 := by
  simp only [isMrs, Bool.and_eq_true, beq_iff_eq]
  exact and_congr Iff.rfl (extractLsb'_eq_iff_matches _ (by decide))

theorem isMrs_eq_false_of_isMsr {hw1 hw2 : Half} (h : isMsr hw1 hw2 = true) : isMrs hw1 hw2 = false := by
  by_contra hn
  obtain ⟨h1, -⟩ := (isMsr_iff_matches _ _).1 h
  obtain ⟨rfl, -⟩ := (isMrs_iff_matches _ _).1 (Bool.eq_true_of_not_eq_false hn)
  exact absurd h1 (by rw [Matches]; decide)

/-- A well-formed record of two halfwords is what the decoder makes of them. -/
theorem decodeLong_of_encodeHalves {i : Instr} {hw1 hw2 : Half} (hi : i.wf = true)
    (he : encodeHalves i = [hw1, hw2]) : isLongForm hw1 = true ∧ decodeLong hw1 hw2 = some i := by
  cases i with
  | bl imm32 =>
    obtain ⟨hf, h2⟩ := Bool.and_eq_true_iff.1 hi
    cases he
    simp [isLongForm, decodeLong, isBl, BitVec.extractLsb'_or, immFromBl_extractLsb' hf h2]
  | msr rn r =>
    cases he
    simp [isLongForm, decodeLong, isBl, isMsr, BitVec.extractLsb'_or]
  | mrs rd r =>
    cases he
    simp [isLongForm, decodeLong, isBl, isMsr, isMrs, BitVec.extractLsb'_or]
  | _ => cases he

theorem wf_and_encodeHalves_of_decodeLong {hw1 hw2 : Half} {i : Instr} (e : decodeLong hw1 hw2 = some i) :
    i.wf = true ∧ encodeHalves i = [hw1, hw2] := by
  revert e
  fun_cases decodeLong hw1 hw2 with
  | case1 hbl =>
    rintro ⟨⟩
    obtain ⟨h1, h2⟩ := (isBl_iff_matches _ _).1 hbl
    refine ⟨by simp [Instr.wf], ?_⟩
    simp only [encodeHalves, encodeBl_immFromBl, place_extractLsb', BitVec.or_assoc, ← BitVec.and_or_distrib_left]
    rw [h1.or_and_eq (by decide), h2.or_and_eq (by decide)]
  | case2 _ hmsr =>
    rw [Option.map_eq_some_iff]
    rintro ⟨r, hr, rfl⟩
    obtain ⟨h1, h2⟩ := (isMsr_iff_matches _ _).1 hmsr
    refine ⟨rfl, ?_⟩
    simp only [encodeHalves, SpecialReg.sysm_of_ofSysm hr, place_extractLsb']
    rw [h1.or_and_eq (by decide), h2.or_and_eq (by decide)]
  | case3 _ _ hmrs =>
    rw [Option.map_eq_some_iff]
    rintro ⟨r, hr, rfl⟩
    obtain ⟨h1, h2⟩ := (isMrs_iff_matches _ _).1 hmrs
    refine ⟨rfl, ?_⟩
    simp only [encodeHalves, SpecialReg.sysm_of_ofSysm hr, place_extractLsb', BitVec.or_assoc,
      ← BitVec.and_or_distrib_left]
    rw [h1, h2.or_and_eq (by decide)]
  | case4 => exact nofun

/-! ### The decoder port (R91, R94) -/

theorem decode_of_length_lt_two {bytes : List Byte} (h : bytes.length < 2) :
    decode bytes = .error .truncatedInput := by
  match bytes with
  | [] | [_] => rfl

theorem decode_of_short {b0 b1 : Byte} (h : isLongForm (halfOfBytes b0 b1) = false) (rest : List Byte) :
    decode (b0 :: b1 :: rest) = decoded (decodeShort (halfOfBytes b0 b1)) rest := by
  simp only [decode, h, Bool.false_eq_true, if_false]

theorem decode_of_long_truncated {b0 b1 : Byte} {rest : List Byte} (h : isLongForm (halfOfBytes b0 b1) = true)
    (hr : rest.length < 2) : decode (b0 :: b1 :: rest) = .error .truncatedInput := by
  match rest with
  | [] | [_] => simp only [decode, h, if_true]

theorem decode_of_long {b0 b1 : Byte} (h : isLongForm (halfOfBytes b0 b1) = true) (b2 b3 : Byte) (rest : List Byte) :
    decode (b0 :: b1 :: b2 :: b3 :: rest) = decoded (decodeLong (halfOfBytes b0 b1) (halfOfBytes b2 b3)) rest := by
  simp only [decode, h, if_true]

/-- What the decoder port can do: bytes are missing, or the pattern of a short or of a long form decides. -/
theorem decode_cases (bytes : List Byte) :
    (decode bytes = .error .truncatedInput ∧ (bytes.length < 2 ∨
      ∃ b0 b1 r, bytes = b0 :: b1 :: r ∧ isLongForm (halfOfBytes b0 b1) = true ∧ r.length < 2)) ∨
    (∃ b0 b1 r, bytes = b0 :: b1 :: r ∧ decode bytes = decoded (decodeShort (halfOfBytes b0 b1)) r) ∨
    (∃ b0 b1 b2 b3 r, bytes = b0 :: b1 :: b2 :: b3 :: r ∧
      decode bytes = decoded (decodeLong (halfOfBytes b0 b1) (halfOfBytes b2 b3)) r) := by
  match bytes with
  | [] | [_] => exact .inl ⟨rfl, .inl (by simp)⟩
  | b0 :: b1 :: rest =>
    cases h : isLongForm (halfOfBytes b0 b1) with
    | false => exact .inr (.inl ⟨b0, b1, rest, rfl, decode_of_short h rest⟩)
    | true =>
      match rest with
      | [] | [_] => exact .inl ⟨decode_of_long_truncated h (by simp), .inr ⟨_, _, _, rfl, h, by simp⟩⟩
      | b2 :: b3 :: rest => exact .inr (.inr ⟨b0, b1, b2, b3, rest, rfl, decode_of_long h b2 b3 rest⟩)

theorem decoded_ne_truncatedInput (record : Option Instr) (rest : List Byte) :
    decoded record rest ≠ .error .truncatedInput := by
  cases record <;> exact nofun

theorem decoded_eq_ok_iff {record : Option Instr} {i : Instr} {rest rest' : List Byte} :
    decoded record rest = .ok (i, rest') ↔ record = some i ∧ rest = rest' := by
  cases record <;> simp [decoded]

/-- Settles O3: the cases of the decoder port, of which the two that look at a pattern never miss a byte. -/
theorem truncatedInputIffBytesAreMissing : Obligations.TruncatedInputIffBytesAreMissing := by
  unfold Obligations.TruncatedInputIffBytesAreMissing
  refine ⟨fun _ => decode_of_length_lt_two, fun _ _ rest h => decode_of_short h rest,
    fun _ _ _ h => decode_of_long_truncated h, fun _ _ b2 b3 rest h => decode_of_long h b2 b3 rest, fun bytes e => ?_⟩
  rcases decode_cases bytes with ⟨-, hlen | ⟨b0, b1, r, rfl, h, hr⟩⟩ | ⟨b0, b1, r, -, hd⟩ | ⟨b0, b1, b2, b3, r, -, hd⟩
  · omega
  · exact ⟨Nat.add_lt_add_right hr 2, fun _ => ⟨b0, b1, r, rfl, h⟩⟩
  · exact absurd (hd ▸ e) (decoded_ne_truncatedInput _ _)
  · exact absurd (hd ▸ e) (decoded_ne_truncatedInput _ _)

/-! ### The encoder inverts the decoder port (R122) -/

theorem halfOfBytes_extractLsb'_self (h : Half) : halfOfBytes (h.extractLsb' 0 8) (h.extractLsb' 8 8) = h := by
  rw [Machine.halfOfBytes_eq_append]
  exact (BitVec.extractLsb'_append_extractLsb'_eq_extractLsb' rfl).trans BitVec.extractLsb'_eq_self

theorem bytesOfHalf_halfOfBytes (b0 b1 : Byte) : bytesOfHalf (halfOfBytes b0 b1) = [b0, b1] := by
  rw [bytesOfHalf, Machine.halfOfBytes_eq_append, BitVec.extractLsb'_append_eq_left,
    BitVec.extractLsb'_append_eq_right]

theorem length_encode (i : Instr) : (encode i).length = i.width := by
  cases i <;> rfl

/-- A record has one halfword or two. -/
theorem encodeHalves_cases (i : Instr) :
    (∃ h, encodeHalves i = [h]) ∨ ∃ hw1 hw2, encodeHalves i = [hw1, hw2] := by
  cases i with
  | bl | msr | mrs => exact .inr ⟨_, _, rfl⟩
  | _ => exact .inl ⟨_, rfl⟩

/-- Settles O1: the bytes of one or two halfwords give those halfwords back, and the halfwords of a well-formed record
decode to it. -/
theorem decodeOfEncodeIsTheRecord : Obligations.DecodeOfEncodeIsTheRecord := by
  unfold Obligations.DecodeOfEncodeIsTheRecord
  intro i rest hi
  rcases encodeHalves_cases i with ⟨h, he⟩ | ⟨hw1, hw2, he⟩
  · have hd := decodeShort_of_encodeHalves hi he
    have hl := isLongForm_of_decodeShort hd
    simp [encode, he, bytesOfHalf, decode, halfOfBytes_extractLsb'_self, hl, hd, decoded]
  · obtain ⟨hl, hd⟩ := decodeLong_of_encodeHalves hi he
    simp [encode, he, bytesOfHalf, decode, halfOfBytes_extractLsb'_self, hl, hd, decoded]

/-- A record the decoder port answers is well-formed, and its bytes are the ones consumed. -/
theorem wf_and_eq_encode_append_of_decode {bytes rest : List Byte} {i : Instr} (e : decode bytes = .ok (i, rest)) :
    i.wf = true ∧ bytes = encode i ++ rest := by
  rcases decode_cases bytes with ⟨hd, -⟩ | ⟨b0, b1, r, rfl, hd⟩ | ⟨b0, b1, b2, b3, r, rfl, hd⟩
  · cases hd.symm.trans e
  · obtain ⟨hi, rfl⟩ := decoded_eq_ok_iff.1 (hd.symm.trans e)
    obtain ⟨hwf, he⟩ := wf_and_encodeHalves_of_decodeShort hi
    exact ⟨hwf, by simp [encode, he, bytesOfHalf_halfOfBytes]⟩
  · obtain ⟨hi, rfl⟩ := decoded_eq_ok_iff.1 (hd.symm.trans e)
    obtain ⟨hwf, he⟩ := wf_and_encodeHalves_of_decodeLong hi
    exact ⟨hwf, by simp [encode, he, bytesOfHalf_halfOfBytes]⟩

/-- Settles O2: the fields of the decoded record are the halfwords' own, so its bytes are the ones consumed, and as many
as its width. -/
theorem encodeOfDecodedIsTheConsumedBytes : Obligations.EncodeOfDecodedIsTheConsumedBytes := by
  unfold Obligations.EncodeOfDecodedIsTheConsumedBytes
  intro bytes rest i e
  obtain ⟨hwf, hbytes⟩ := wf_and_eq_encode_append_of_decode e
  refine ⟨hwf, hbytes, ?_⟩
  rw [hbytes, List.length_append, length_encode]

/-! ### Words and patterns of the spec (R102 to R114, R121) -/

theorem immFromImm8Words_eq_shiftLeft (x : BitVec 8) : immFromImm8Words x = x.setWidth 32 <<< 2 := by
  rw [immFromImm8Words, BitVec.setWidth_append_eq_shiftLeft_setWidth_or, BitVec.setWidth_zero]
  exact BitVec.or_zero

theorem immFromBranch8_eq_shiftLeft (x : BitVec 8) : immFromBranch8 x = x.signExtend 32 <<< 1 :=
  signExtend_append_zero x (by decide)

theorem immFromBranch11_eq_shiftLeft (x : BitVec 11) : immFromBranch11 x = x.signExtend 32 <<< 1 :=
  signExtend_append_zero x (by decide)

/-- Settles O7: the fields the decoder compares lie inside each mask, so they are read from the match value. -/
theorem shortFormsDecodeByMatchAndMask : Obligations.ShortFormsDecodeByMatchAndMask := by
  unfold Obligations.ShortFormsDecodeByMatchAndMask
  intro hw1 hw2
  have fields {m c : Half} (e : hw1 &&& m = c) (lo n : Nat) (hm : m.extractLsb' lo n = BitVec.allOnes n) :
      hw1.extractLsb' lo n = c.extractLsb' lo n := Matches.extractLsb'_eq e lo n hm
  refine ⟨fun e => ?_, fun e => ?_, fun e => ?_, fun e => ?_, fun e => ?_, fun e => ?_, fun e => ?_, fun e => ?_,
    fun e => ?_, fun e => ?_, fun e => ?_, fun c hc e => ?_, fun e => ?_⟩ <;>
    apply decodeHalves_of_decodeShort
  · simp [decodeShort, fields e 11 5 rfl, fields e 9 2 rfl]
  · simp [decodeShort, fields e 11 5 rfl, fields e 9 2 rfl, immFromImm3]
  · simp [decodeShort, fields e 11 5 rfl, immFromImm8]
  · simp [decodeShort, fields e 11 5 rfl, immFromImm8]
  · simp [decodeShort, fields e 11 5 rfl, immFromImm8]
  · simp [decodeShort, fields e 11 5 rfl, fields e 10 1 rfl]
  · simp [decodeShort, fields e 11 5 rfl, fields e 10 1 rfl, fields e 8 2 rfl, fields e 7 1 rfl, fields e 0 3 rfl]
  · simp [decodeShort, fields e 11 5 rfl, immFromImm8Words_eq_shiftLeft]
  · simp [decodeShort, fields e 11 5 rfl, immFromImm8Words_eq_shiftLeft]
  · simp [decodeShort, fields e 11 5 rfl, lowRegisters]
  · simp [decodeShort, fields e 11 5 rfl, lowRegisters]
  · have e : Matches hw1 0xFF00#16 (0xD000#16 ||| place 8 c.code) := e
    have h12 : hw1.extractLsb' 12 4 = 13#4 := by simp [e.extractLsb'_eq 12 4 rfl, BitVec.extractLsb'_or]
    have h8 : hw1.extractLsb' 8 4 = c.code := by simp [e.extractLsb'_eq 8 4 rfl, BitVec.extractLsb'_or]
    simp [decodeShort_of_bCond h12, h8, Cond.ofBranchField_code hc, immFromBranch8_eq_shiftLeft]
  · simp [decodeShort, fields e 11 5 rfl, immFromBranch11_eq_shiftLeft]

/-- Settles O9: the twelve words, decoded. -/
theorem wordsOfTheSpecDecode : Obligations.WordsOfTheSpecDecode := by
  unfold Obligations.WordsOfTheSpecDecode
  decide

end Sys2Proof

namespace Sys2Proof.Machine

/-! ### The illegal space (R118) -/

theorem isSome_ofSysm_eq_sysmDefined (n : BitVec 8) : (SpecialReg.ofSysm n).isSome = sysmDefined n := by
  fun_cases SpecialReg.ofSysm n with
  | case9 =>
    simp only [imp_false] at *
    simp [sysmDefined, ← BitVec.toNat_inj, *]
  | _ hn =>
    rw [eq_ofNat_of_toNat_eq hn]
    rfl

theorem decodeShort_eq_none_iff_illegalShort {h : Half} (hs : isLongForm h = false) :
    decodeShort h = none ↔ illegalShort h = true := by
  have hlt : h.toNat < 59392 := by
    rw [← Nat.not_le, ← longFormIsTheThreePrefixes h, hs]
    exact Bool.false_ne_true
  have field (lo n : Nat) : (h.extractLsb' lo n).toNat = h.toNat / 2 ^ lo % 2 ^ n := by
    rw [BitVec.extractLsb'_toNat, Nat.shiftRight_eq_div_pow]
  have low_ne_zero : h.extractLsb' 0 3 ≠ 0#3 ↔ h.toNat % 8 ≠ 0 := by
    rw [ne_eq, ← BitVec.toNat_inj, field]
    simp
  simp only [illegalShort, halfBetween, Bool.or_eq_true, Bool.and_eq_true, decide_eq_true_eq, bne_iff_ne, low_ne_zero]
  fun_cases decodeShort h with
  | case3 | case10 | case11 | case16 | case18 | case20 | case26 =>
    simp only [imp_false, field, true_iff] at *
    omega
  | case23 | case24 =>
    rw [Option.map_eq_none_iff, Cond.ofBranchField_eq_none_iff]
    simp only [field] at *
    omega
  | _ =>
    simp only [imp_false, field, reduceCtorEq, false_iff] at *
    omega

/-- Settles O5: in every branch of R101 the fields compared place the halfword inside or outside the listed ranges. -/
theorem shortFormIllegalExactlyInTheListedRanges : Obligations.ShortFormIllegalExactlyInTheListedRanges := by
  unfold Obligations.ShortFormIllegalExactlyInTheListedRanges
  intro hw1 hw2 h
  rw [decodeHalves, h, if_neg Bool.false_ne_true]
  exact decodeShort_eq_none_iff_illegalShort h

theorem legalLong_eq_isSome_decodeLong (hw1 hw2 : Half) : legalLong hw1 hw2 = (decodeLong hw1 hw2).isSome := by
  have hbl : (hw1 &&& 0xF800#16 == 0xF000#16 && hw2 &&& 0xD000#16 == 0xD000#16) = isBl hw1 hw2 := by
    rw [Bool.eq_iff_iff, isBl_iff_matches]
    simp [Matches]
  have hmsr : (hw1 &&& 0xFFF0#16 == 0xF380#16 && hw2 &&& 0xFF00#16 == 0x8800#16) = isMsr hw1 hw2 := by
    rw [Bool.eq_iff_iff, isMsr_iff_matches]
    simp [Matches]
  have hmrs : (hw1 == 0xF3EF#16 && hw2 &&& 0xF000#16 == 0x8000#16) = isMrs hw1 hw2 := by
    rw [Bool.eq_iff_iff, isMrs_iff_matches]
    simp [Matches]
  rw [legalLong, hbl, hmsr, hmrs, BitVec.setWidth_eq_extractLsb' (by decide), ← isSome_ofSysm_eq_sysmDefined]
  fun_cases decodeLong hw1 hw2 with
  | case1 h => simp [h]
  | case2 h h' => simp [h, h', isMrs_eq_false_of_isMsr]
  | case3 h h' h'' => simp [h, h', h'']
  | case4 h h' h'' => simp [h, h', h'']

/-- Settles O6: match and mask of BL, MSR and MRS are the decoder's three tests, and the defined SYSm are the numbers
with an identifier. -/
theorem longFormIllegalExactlyOutsideBlMsrMrs : Obligations.LongFormIllegalExactlyOutsideBlMsrMrs := by
  unfold Obligations.LongFormIllegalExactlyOutsideBlMsrMrs
  intro hw1 hw2 h
  rw [decodeHalves, if_pos h, legalLong_eq_isSome_decodeLong, Option.isSome_eq_false_iff, Option.isNone_iff_eq_none]

/-! ### Register lists (R98) -/

theorem listed_pairwise_lt (registers : BitVec 16) :
    (listed registers).Pairwise (fun i j => i.toNat < j.toNat) := by
  rw [listed, List.pairwise_map]
  refine (List.pairwise_lt_range.filter _).imp_of_mem fun hi hj hlt => ?_
  have hi16 := List.mem_range.1 (List.mem_of_mem_filter hi)
  have hj16 := List.mem_range.1 (List.mem_of_mem_filter hj)
  simpa [Nat.mod_eq_of_lt hi16, Nat.mod_eq_of_lt hj16] using hlt

/-- Settles O18: the list is the rising numbers 0 to 15 with the clear bits left out. -/
theorem registerListsAscend : Obligations.RegisterListsAscend := by
  unfold Obligations.RegisterListsAscend
  intro registers
  refine ⟨listed_pairwise_lt registers, mem_listed registers, ?_⟩
  rw [listCount, listed, List.length_map, List.countP_eq_length_filter]

end Sys2Proof.Machine
end

section
/-! Sums with a carry in, differences by complement and the conditions (spec/40_execution_engine.md R150 to R155). -/

namespace Sys2Proof.Machine

/-! ### The sum with a carry in (R150) -/

@[simp] theorem addWithCarry_result (x y : Word) (c : Bool) :
    (addWithCarry x y c).result = x + y + BitVec.ofNat 32 c.toNat := by
  simp [addWithCarry, BitVec.ofNat_add]

theorem toNat_addWithCarry_result (x y : Word) (c : Bool) :
    (addWithCarry x y c).result.toNat = (x.toNat + y.toNat + c.toNat) % 4294967296 :=
  BitVec.toNat_ofNat _ 32

theorem addWithCarry_carryOut_iff_ne (x y : Word) (c : Bool) :
    (addWithCarry x y c).carryOut = true ↔ (addWithCarry x y c).result.toNat ≠ x.toNat + y.toNat + c.toNat :=
  decide_eq_true_iff

/-- The unsigned sum wraps exactly when it does not fit 32 bits. -/
@[simp] theorem addWithCarry_carryOut (x y : Word) (c : Bool) :
    (addWithCarry x y c).carryOut = decide (4294967296 ≤ x.toNat + y.toNat + c.toNat) := by
  rw [Bool.eq_iff_iff, addWithCarry_carryOut_iff_ne, toNat_addWithCarry_result, decide_eq_true_iff]
  omega

/-- The sum of two words and a carry is below `2^33`, so the carry out is its bit 32. -/
theorem addWithCarry_carryOut_eq_testBit (x y : Word) (c : Bool) :
    (addWithCarry x y c).carryOut = (x.toNat + y.toNat + c.toNat).testBit 32 := by
  have hc := c.toNat_lt
  rw [addWithCarry_carryOut, Nat.testBit_eq_decide_div_mod_eq]
  refine decide_eq_decide.2 ?_
  omega

/-- The signed reading of the result is the exact signed sum brought back into 32 bits. -/
theorem toInt_addWithCarry_result (x y : Word) (c : Bool) :
    (addWithCarry x y c).result.toInt = (x.toInt + y.toInt + (c.toNat : Int)).bmod 4294967296 := by
  have hc : (BitVec.ofNat 32 c.toNat).toInt = c.toNat := by cases c <;> rfl
  rw [addWithCarry_result, BitVec.toInt_add, BitVec.toInt_add, hc, Int.bmod_add_bmod]

theorem addWithCarry_overflow_iff_ne (x y : Word) (c : Bool) :
    (addWithCarry x y c).overflow = true ↔
      (addWithCarry x y c).result.toInt ≠ x.toInt + y.toInt + (c.toNat : Int) :=
  decide_eq_true_iff

/-- The signed sum wraps exactly when it does not fit 32 bits. -/
@[simp] theorem addWithCarry_overflow (x y : Word) (c : Bool) :
    (addWithCarry x y c).overflow = signedOverflow (x.toInt + y.toInt + (c.toNat : Int)) := by
  rw [Bool.eq_iff_iff, addWithCarry_overflow_iff_ne, toInt_addWithCarry_result, signedOverflow, decide_eq_true_iff,
    Int.bmod]
  omega

theorem getLsbD_31_eq_toInt_neg (v : Word) : v.getLsbD 31 = decide (v.toInt < 0) :=
  (BitVec.msb_eq_getLsbD_last v).symm.trans BitVec.msb_eq_toInt

/-- Overflow is seen in the signs: both operands have one and the result has the other. -/
theorem addWithCarry_overflow_iff_signs (x y : Word) (c : Bool) :
    (addWithCarry x y c).overflow = true ↔
      x.getLsbD 31 = y.getLsbD 31 ∧ (addWithCarry x y c).result.getLsbD 31 ≠ x.getLsbD 31 := by
  have hx := x.toInt_lt
  have hx' := x.le_toInt
  have hy := y.toInt_lt
  have hy' := y.le_toInt
  have hc := c.toNat_lt
  simp only [getLsbD_31_eq_toInt_neg, toInt_addWithCarry_result, addWithCarry_overflow, signedOverflow,
    decide_eq_true_eq, decide_eq_decide, ne_eq, Int.bmod]
  omega

theorem addWithCarry_comm (x y : Word) (c : Bool) : addWithCarry x y c = addWithCarry y x c := by
  simp only [addWithCarry, Nat.add_comm y.toNat, Int.add_comm y.toInt]

/-- Settles O10: either wrap is a sum that does not fit 32 bits, and a signed one shows in the signs. -/
theorem addWithCarryReportsUnsignedAndSignedWrap : Obligations.AddWithCarryReportsUnsignedAndSignedWrap := by
  unfold Obligations.AddWithCarryReportsUnsignedAndSignedWrap
  intro x y c
  exact ⟨toNat_addWithCarry_result x y c, addWithCarry_carryOut_iff_ne x y c, addWithCarry_carryOut_eq_testBit x y c,
    addWithCarry_overflow_iff_ne x y c, addWithCarry_overflow_iff_signs x y c⟩

/-- Settles O11: the two exact sums commute. -/
theorem addWithCarryCommutesAndHasTheWorkedValues : Obligations.AddWithCarryCommutesAndHasTheWorkedValues := by
  unfold Obligations.AddWithCarryCommutesAndHasTheWorkedValues
  exact ⟨addWithCarry_comm, by decide, by decide, by decide⟩

/-! ### The difference by complement (R153) -/

theorem toInt_not_eq_neg_sub_one (b : Word) : (~~~b).toInt = -b.toInt - 1 := by
  rw [BitVec.toInt_eq_toNat_cond, BitVec.toInt_eq_toNat_cond, BitVec.toNat_not]
  omega

@[simp] theorem subtract_result (a b : Word) : (subtract a b).result = a - b := by
  rw [subtract, addWithCarry_result, BitVec.add_assoc, BitVec.sub_eq_add_neg, BitVec.neg_eq_not_add]
  rfl

@[simp] theorem subtract_carryOut (a b : Word) : (subtract a b).carryOut = decide (b.toNat ≤ a.toNat) := by
  rw [subtract, addWithCarry_carryOut, BitVec.toNat_not, Bool.toNat_true]
  refine decide_eq_decide.2 ?_
  omega

@[simp] theorem subtract_overflow (a b : Word) :
    (subtract a b).overflow = signedOverflow (a.toInt - b.toInt) := by
  rw [subtract, addWithCarry_overflow, toInt_not_eq_neg_sub_one, Bool.toNat_true]
  congr 1
  omega

/-- Settles O12: the sum with `NOT(b)`, which reads as `-b - 1` signed and as `2^32 - 1 - b` unsigned, and 1. -/
theorem subtractionCarriesWhenNoBorrow : Obligations.SubtractionCarriesWhenNoBorrow := by
  unfold Obligations.SubtractionCarriesWhenNoBorrow
  exact fun a b => ⟨rfl, subtract_result a b, subtract_carryOut a b, subtract_overflow a b⟩

/-! ### The conditions (R154, R155) -/

/-- Settles O13: the evaluator reads nothing but the four flags, and agrees with the table in all sixteen of their
states. -/
theorem conditionsMeanTheirTable : Obligations.ConditionsMeanTheirTable := by
  unfold Obligations.ConditionsMeanTheirTable
  rintro ⟨n, z, c, v⟩
  refine ⟨?_, rfl⟩
  revert n z c v
  decide

end Sys2Proof.Machine
end

section
/-! One tick: fetch and decode, the instruction, and the advance (spec/40_execution_engine.md R140 to R146). -/

namespace Sys2Proof.Machine

/-! ### Fetch and decode (R141, R142) -/

/-- Settles O41: the decoder port on the four bytes at the PC finds the record the fetch finds. -/
theorem stepRunsTheDecodedInstruction : Obligations.StepRunsTheDecodedInstruction := by
  unfold Obligations.StepRunsTheDecodedInstruction
  exact fun s i rest hr hpc hd => step_of_fetch_ok hr (State.decodeAt_of_decode_ok (inRange_of_le hpc) hd)

/-- The halt of a fetch that fails. -/
theorem haltsWith_step_of_fetch_error {s : State} {c : HaltCause} (h : s.run = .running) (hf : s.fetch = .error c) :
    HaltsWith c s (step s) :=
  step_of_fetch_error h hf ▸ haltsWith_raise c s

theorem decode_four_ne_truncatedInput (b0 b1 b2 b3 : Byte) : decode [b0, b1, b2, b3] ≠ .error .truncatedInput := by
  obtain ⟨-, -, -, -, missing⟩ := truncatedInputIffBytesAreMissing
  exact fun e => absurd (missing _ e).1 (by simp)

/-- Settles O42: a PC out of range and a pattern that does not decode are failures of the fetch. -/
theorem fetchAndDecodeFailuresHalt : Obligations.FetchAndDecodeFailuresHalt := by
  unfold Obligations.FetchAndDecodeFailuresHalt
  refine ⟨decode_four_ne_truncatedInput, fun s hr hpc => ?_, fun s e hr hpc hd => ?_⟩
  · exact haltsWith_step_of_fetch_error hr (s.decodeAt_of_not_inRange ((inRange_eq_false_iff _).2 hpc))
  · exact haltsWith_step_of_fetch_error hr (State.decodeAt_of_decode_error (inRange_of_le hpc) hd)

/-- Settles O45: a failed fetch answers its halt, and every record its halt or what its handler leaves. -/
theorem everyTickOfARunningBlockAnswers : Obligations.EveryTickOfARunningBlockAnswers := by
  unfold Obligations.EveryTickOfARunningBlockAnswers
  exact fun s h => exists_step_eq_next h

/-! ### The advance (R28, R144) -/

/-- Register 15 is among the registers written: a write of it is a branch (R24, R28). -/
def writesPc (ws : List (BitVec 4 × Word)) : Bool := ws.any fun w => decide (w.1 = pcIndex)

theorem State.writeRegs_branchTaken (ws : List (BitVec 4 × Word)) (s : State) :
    (s.writeRegs ws).branchTaken = (writesPc ws || s.branchTaken) := by
  induction ws generalizing s with
  | nil => rfl
  | cons w ws ih =>
    rw [State.writeRegs, ih, State.writeReg_branchTaken, Bool.or_left_comm, ← Bool.or_assoc]
    rfl

theorem State.writeRegs_pc {ws : List (BitVec 4 × Word)} (h : writesPc ws = false) (s : State) :
    (s.writeRegs ws).pc = s.pc := by
  induction ws generalizing s with
  | nil => rfl
  | cons w ws ih =>
    obtain ⟨hw, hws⟩ := Bool.or_eq_false_iff.1 h
    rw [State.writeRegs, ih hws, State.pc, State.stored_writeReg, if_neg (Ne.symm (of_decide_eq_false hw))]
    rfl

/-- The handlers that write register 15 (R144). -/
theorem writesPc_effect (i : Instr) (s : State) : writesPc (effect i s).writes = redirects s.flags i := by
  cases i with
  | bCond cond imm32 =>
    simp only [effect, redirects]
    cases conditionPassed (some cond) s.flags <;> rfl
  | movReg rd rm | mrs rd => exact Bool.or_false _
  | addReg | addImm3 | addImm8 | movImm | mvns | ldrLit | stm =>
    exact (Bool.or_false _).trans (decide_eq_false (low_ne_pcIndex _))
  | _ => rfl

theorem State.updateFlags_branchTaken (s : State) (g : Option Flags) :
    (s.updateFlags g).branchTaken = s.branchTaken := by
  cases g <;> rfl

theorem Effect.apply_branchTaken (e : Effect) (s : State) :
    (e.apply s).branchTaken = (writesPc e.writes || s.branchTaken) := by
  rw [Effect.apply, State.updateFlags_branchTaken, State.writeRegs_branchTaken, State.writeWords_branchTaken]

theorem Effect.apply_pc {e : Effect} (h : writesPc e.writes = false) (s : State) : (e.apply s).pc = s.pc := by
  rw [Effect.apply, State.updateFlags_pc, State.writeRegs_pc h]
  exact State.writeWords_stored _ s pcIndex

/-- Settles O48: `branch_taken` says whether the effect writes register 15; where it does not, the advance starts from
the PC of the tick. -/
theorem advanceUnlessTheHandlerRedirects : Obligations.AdvanceUnlessTheHandlerRedirects := by
  unfold Obligations.AdvanceUnlessTheHandlerRedirects
  intro i s t _ h hrun
  rcases exec_next h with ⟨c, hc⟩ | rfl
  · rw [raise_next hc] at hrun
    cases hrun
  · have htaken : ((effect i s).apply { s with branchTaken := false }).branchTaken = redirects s.flags i := by
      rw [Effect.apply_branchTaken, writesPc_effect, Bool.or_false]
    refine ⟨(State.advance_branchTaken _ _).trans htaken, fun hn => ?_⟩
    rw [State.pc, State.stored_advance, if_pos ⟨rfl, htaken.trans hn⟩,
      Effect.apply_pc ((writesPc_effect i s).trans hn)]
    rfl

end Sys2Proof.Machine
end

section
/-! What a record that raises no halt answers: the result of its effect, and what that writes and leaves unchanged
(spec/40_execution_engine.md R140, R144); and the one halfword a short form is decoded from (spec/30_encoding.md
R122). -/

namespace Sys2Proof

/-- A well-formed record is decoded from the one halfword that encodes it (R122). -/
theorem decodeHalves_of_encodeHalves {i : Instr} {h : Half} (hw2 : Half) (hi : i.wf = true)
    (he : encodeHalves i = [h]) : decodeHalves h hw2 = some i :=
  decodeHalves_of_decodeShort (decodeShort_of_encodeHalves hi he) hw2

end Sys2Proof

namespace Sys2Proof.Machine

/-- The next state of a tick whose handler has this effect: `branch_taken` cleared, the effect written, the advance. -/
def Effect.result (e : Effect) (width : Word) (s : State) : State :=
  (e.apply { s with branchTaken := false }).advance width

theorem exec_of_haltOf_eq_none {i : Instr} {s : State} (h : haltOf i s = none) :
    exec i s = .next ((effect i s).result (BitVec.ofNat 32 i.width) s) := by
  rw [exec_eq_haltOrApply, h]
  rfl

theorem State.stored_updateFlags (s : State) (g : Option Flags) (i : BitVec 4) :
    (s.updateFlags g).stored i = s.stored i := by
  cases g <;> rfl

theorem State.updateFlags_special (s : State) (g : Option Flags) : (s.updateFlags g).special = s.special := by
  cases g <;> rfl

theorem State.updateFlags_run (s : State) (g : Option Flags) : (s.updateFlags g).run = s.run := by
  cases g <;> rfl

theorem State.stored_writeRegs_of_notMem {ws : List (BitVec 4 × Word)} {i : BitVec 4} (h : i ∉ ws.map Prod.fst)
    (s : State) : (s.writeRegs ws).stored i = s.stored i := by
  induction ws generalizing s with
  | nil => rfl
  | cons w ws ih =>
    obtain ⟨hw, hws⟩ := List.ne_and_not_mem_of_not_mem_cons h
    rw [State.writeRegs, ih hws, State.stored_writeReg, if_neg hw]

theorem State.writeRegs_special (ws : List (BitVec 4 × Word)) (s : State) : (s.writeRegs ws).special = s.special := by
  induction ws generalizing s with
  | nil => rfl
  | cons w ws ih => rw [State.writeRegs, ih, State.writeReg_special]

theorem State.writeRegs_run (ws : List (BitVec 4 × Word)) (s : State) : (s.writeRegs ws).run = s.run := by
  induction ws generalizing s with
  | nil => rfl
  | cons w ws ih => rw [State.writeRegs, ih, State.writeReg_run]

theorem Effect.stored_apply (e : Effect) (s : State) (i : BitVec 4) :
    (e.apply s).stored i = ((s.writeWords e.stores).writeRegs e.writes).stored i :=
  State.stored_updateFlags _ _ i

theorem Effect.result_flags (e : Effect) (width : Word) (s : State) :
    (e.result width s).flags = e.flags.getD s.flags :=
  (State.advance_flags _ _).trans (e.apply_flags _)

theorem Effect.result_branchTaken (e : Effect) (width : Word) (s : State) :
    (e.result width s).branchTaken = writesPc e.writes := by
  rw [Effect.result, State.advance_branchTaken, Effect.apply_branchTaken, Bool.or_false]

/-- Register 15, where the effect does not write it. -/
theorem Effect.result_pc {e : Effect} (h : writesPc e.writes = false) (width : Word) (s : State) :
    (e.result width s).pc = s.pc + width := by
  have htaken : (e.apply { s with branchTaken := false }).branchTaken = false := by
    rw [Effect.apply_branchTaken, h, Bool.or_false]
  rw [Effect.result, State.pc, State.stored_advance, if_pos ⟨rfl, htaken⟩, Effect.apply_pc h]
  rfl

/-- Any register, where the effect branches; any but register 15, where it does not. -/
theorem Effect.stored_result {e : Effect} {i : BitVec 4} (h : i = pcIndex → writesPc e.writes = true) (width : Word)
    (s : State) :
    (e.result width s).stored i = (e.apply { s with branchTaken := false }).stored i := by
  rw [Effect.result, State.stored_advance, Effect.apply_branchTaken, Bool.or_false, if_neg]
  rintro ⟨hi, hn⟩
  exact Bool.false_ne_true (hn.symm.trans (h hi))

/-- The frame of an effect: its own registers and the PC apart, every register is as before. -/
theorem Effect.keeps_result (e : Effect) (width : Word) (s : State) :
    Keeps s (e.result width s) (e.writes.map Prod.fst) := by
  refine ⟨fun i hpc hi => ?_, ?_, ?_⟩
  · rw [Effect.stored_result (absurd · hpc), Effect.stored_apply, State.stored_writeRegs_of_notMem hi,
      State.writeWords_stored, State.stored_clear]
  · rw [Effect.result, State.advance_special, Effect.apply, State.updateFlags_special, State.writeRegs_special,
      State.writeWords_special]
  · rw [Effect.result, State.advance_run, Effect.apply, State.updateFlags_run, State.writeRegs_run,
      State.writeWords_run]

theorem Effect.keepsMemory_result {e : Effect} (h : e.stores = []) (width : Word) (s : State) :
    KeepsMemory s (e.result width s) := by
  have hmem : (e.result width s).mem = s.mem := by
    rw [Effect.result, State.advance_mem, Effect.apply_mem, h]
    rfl
  exact fun a => congrArg (Memory.get · a) hmem

/-- An effect on one register writes it as the register-file write rule says (R24, R28). -/
theorem Effect.writes_result {e : Effect} {rd : BitVec 4} {v : Word} (h : e.writes = [(rd, v)]) (width : Word)
    (s : State) : Writes width s (e.result width s) rd v := by
  have hpcWrite : writesPc e.writes = decide (rd = pcIndex) := by
    rw [h]
    exact Bool.or_false _
  have hstored : (e.result width s).stored rd = if rd = pcIndex then clearBit0 v else v := by
    rw [Effect.stored_result (fun hrd => hpcWrite.trans (decide_eq_true hrd)), Effect.stored_apply, h,
      State.writeRegs, State.writeRegs, State.stored_writeReg, if_pos rfl]
  unfold Writes
  rw [Effect.result_branchTaken, hpcWrite]
  split
  · next hrd =>
    rw [if_pos hrd, hrd] at hstored
    exact ⟨hstored, decide_eq_true hrd⟩
  · next hrd =>
    rw [if_neg hrd] at hstored
    exact ⟨hstored, Effect.result_pc (hpcWrite.trans (decide_eq_false hrd)) width s, decide_eq_false hrd⟩

/-- R0 to R7 take the value unchanged, and the PC advances. -/
theorem Writes.of_low {width : Word} {s t : State} {rd : BitVec 3} {v : Word} (h : Writes width s t (low rd) v) :
    t.stored (low rd) = v ∧ t.pc = s.pc + width ∧ t.branchTaken = false := by
  rwa [Writes, if_neg (low_ne_pcIndex rd)] at h

end Sys2Proof.Machine
end

section
/-! MOV (immediate), CMP (immediate) and MOV (register) (spec/41_move_compare.md R170 to R172). -/

namespace Sys2Proof.Machine

theorem flagsOf_subtract (x y : Word) : flagsOf (subtract x y) = flagsOfDifference x y := by
  have hz : x - y = 0#32 ↔ x = y := sub_eq_zero
  simp only [flagsOf, flagsOfDifference, subtract_result, subtract_carryOut, subtract_overflow, hz]

theorem State.readReg_eq_ite (s : State) (i : BitVec 4) :
    s.readReg i = if i = 15#4 then s.pc + 4#32 else s.stored i := by
  obtain ⟨hread, -⟩ := registerFileReadAndWriteRules s i 0#32
  exact hread

/-- Settles O19: the effect is one write of a register that is not the PC, and has no flags. -/
theorem movImmediateWritesZeroExtendedImmediate : Obligations.MovImmediateWritesZeroExtendedImmediate := by
  unfold Obligations.MovImmediateWritesZeroExtendedImmediate
  intro rd imm8 hw2 s
  have hencode : encodeHalves (.movImm rd (imm8.setWidth 32)) =
      [0x2000#16 ||| rd.setWidth 16 <<< 8 ||| imm8.setWidth 16] := by
    simp [encodeHalves, place]
  obtain ⟨hstored, hpc, -⟩ :=
    (Effect.writes_result (e := effect (.movImm rd (imm8.setWidth 32)) s) rfl 2#32 s).of_low
  exact ⟨decodeHalves_of_encodeHalves hw2 (fitsUnsigned_setWidth imm8 (by decide)) hencode, _,
    exec_of_haltOf_eq_none rfl, hstored, Effect.result_flags _ _ s, hpc, Effect.keepsMemory_result rfl _ s,
    Effect.keeps_result _ _ s⟩

/-- Settles O20: the effect is the flags of the subtraction alone. -/
theorem cmpImmediateSetsFlagsOnly : Obligations.CmpImmediateSetsFlagsOnly := by
  unfold Obligations.CmpImmediateSetsFlagsOnly
  intro rn imm8 hw2 s
  have hencode : encodeHalves (.cmpImm rn (imm8.setWidth 32)) =
      [0x2800#16 ||| rn.setWidth 16 <<< 8 ||| imm8.setWidth 16] := by
    simp [encodeHalves, place]
  have hflags : (effect (.cmpImm rn (imm8.setWidth 32)) s).flags =
      some (flagsOfDifference (s.stored (low rn)) (imm8.setWidth 32)) := by
    rw [effect, State.readReg_low, flagsOf_subtract]
  refine ⟨decodeHalves_of_encodeHalves hw2 (fitsUnsigned_setWidth imm8 (by decide)) hencode, _,
    exec_of_haltOf_eq_none rfl, ?_, Effect.result_pc rfl _ s, Effect.keepsMemory_result rfl _ s,
    Effect.keeps_result _ _ s⟩
  rw [Effect.result_flags, hflags, Option.getD_some]

/-- Settles O22: the effect is one write, by the register-file write rule, of what the register-file read rule gives. -/
theorem movRegisterCopiesAnyRegister : Obligations.MovRegisterCopiesAnyRegister := by
  unfold Obligations.MovRegisterCopiesAnyRegister
  intro rd rm hw2 s
  have hencode : encodeHalves (.movReg rd rm) = [0x4600#16 ||| (rd.extractLsb' 3 1).setWidth 16 <<< 7 |||
      rm.setWidth 16 <<< 3 ||| (rd.extractLsb' 0 3).setWidth 16] := by
    simp [encodeHalves, place]
  have hwrites : (effect (.movReg rd rm) s).writes = [(rd, if rm = 15#4 then s.pc + 4#32 else s.stored rm)] := by
    rw [effect, State.readReg_eq_ite]
  exact ⟨decodeHalves_of_encodeHalves hw2 rfl hencode, _, exec_of_haltOf_eq_none rfl,
    Effect.writes_result hwrites _ s, Effect.result_flags _ _ s, Effect.keepsMemory_result rfl _ s,
    Effect.keeps_result _ _ s⟩

end Sys2Proof.Machine
end

section
/-! ADD in its three forms, ADD SP and SUB SP (spec/42_add_family.md R180 to R184). -/

namespace Sys2Proof

theorem immFromImm7Words_eq_shiftLeft (x : BitVec 7) : immFromImm7Words x = x.setWidth 32 <<< 2 := by
  rw [immFromImm7Words, BitVec.setWidth_append_eq_shiftLeft_setWidth_or, BitVec.setWidth_zero]
  exact BitVec.or_zero

end Sys2Proof

namespace Sys2Proof.Machine

theorem flagsOf_addWithCarry_false (x y : Word) : flagsOf (addWithCarry x y false) = flagsOfSum x y := by
  simp [flagsOf, flagsOfSum]

/-- The effect of the three forms of ADD, in the terms of the statements. -/
theorem sumEffect_eq (rd : BitVec 4) (x y : Word) :
    sumEffect rd x y = { writes := [(rd, x + y)], flags := some (flagsOfSum x y) } := by
  rw [sumEffect, flagsOf_addWithCarry_false, addWithCarry_result, Bool.toNat_false, BitVec.add_zero]

/-- What an instruction answers whose effect is one register, not the PC, and perhaps the flags. -/
theorem exec_of_effect_eq_write {i : Instr} {s : State} {rd : BitVec 4} {v : Word} {g : Option Flags}
    (hhalt : haltOf i s = none) (heffect : effect i s = { writes := [(rd, v)], flags := g }) (hrd : rd ≠ pcIndex) :
    ∃ t, exec i s = .next t ∧ t.stored rd = v ∧ t.flags = g.getD s.flags ∧
      t.pc = s.pc + BitVec.ofNat 32 i.width ∧ KeepsMemory s t ∧ Keeps s t [rd] := by
  have hexec := exec_of_haltOf_eq_none hhalt
  rw [heffect] at hexec
  have hwrites := Effect.writes_result (e := { writes := [(rd, v)], flags := g }) rfl (BitVec.ofNat 32 i.width) s
  rw [Writes, if_neg hrd] at hwrites
  obtain ⟨hstored, hpc, -⟩ := hwrites
  exact ⟨_, hexec, hstored, Effect.result_flags _ _ s, hpc, Effect.keepsMemory_result rfl _ s,
    Effect.keeps_result _ _ s⟩

/-- Settles O23: the effect is the sum of the stored Rn and the immediate, with its flags. -/
theorem addImmediate3WritesSumAndFlags : Obligations.AddImmediate3WritesSumAndFlags := by
  unfold Obligations.AddImmediate3WritesSumAndFlags
  intro imm3 rn rd hw2 s
  have hencode : encodeHalves (.addImm3 (imm3.setWidth 32) rn rd) =
      [0x1C00#16 ||| imm3.setWidth 16 <<< 6 ||| rn.setWidth 16 <<< 3 ||| rd.setWidth 16] := by
    simp [encodeHalves, place]
  have heffect : effect (.addImm3 (imm3.setWidth 32) rn rd) s =
      { writes := [(low rd, s.stored (low rn) + imm3.setWidth 32)]
        flags := some (flagsOfSum (s.stored (low rn)) (imm3.setWidth 32)) } := by
    rw [effect, sumEffect_eq, State.readReg_low]
  exact ⟨decodeHalves_of_encodeHalves hw2 (fitsUnsigned_setWidth imm3 (by decide)) hencode,
    exec_of_effect_eq_write rfl heffect (low_ne_pcIndex rd)⟩

/-- Settles O24: the effect is the sum of the stored Rdn and the immediate, with its flags. -/
theorem addImmediate8WritesSumAndFlags : Obligations.AddImmediate8WritesSumAndFlags := by
  unfold Obligations.AddImmediate8WritesSumAndFlags
  intro rdn imm8 hw2 s
  have hencode : encodeHalves (.addImm8 rdn (imm8.setWidth 32)) =
      [0x3000#16 ||| rdn.setWidth 16 <<< 8 ||| imm8.setWidth 16] := by
    simp [encodeHalves, place]
  have heffect : effect (.addImm8 rdn (imm8.setWidth 32)) s =
      { writes := [(low rdn, s.stored (low rdn) + imm8.setWidth 32)]
        flags := some (flagsOfSum (s.stored (low rdn)) (imm8.setWidth 32)) } := by
    rw [effect, sumEffect_eq, State.readReg_low]
  exact ⟨decodeHalves_of_encodeHalves hw2 (fitsUnsigned_setWidth imm8 (by decide)) hencode,
    exec_of_effect_eq_write rfl heffect (low_ne_pcIndex rdn)⟩

/-- Settles O25: both operands of the effect are read from the old state, so the registers may coincide. -/
theorem addRegisterWritesSumAndFlags : Obligations.AddRegisterWritesSumAndFlags := by
  unfold Obligations.AddRegisterWritesSumAndFlags
  intro rm rn rd hw2 s
  have hencode : encodeHalves (.addReg rm rn rd) =
      [0x1800#16 ||| rm.setWidth 16 <<< 6 ||| rn.setWidth 16 <<< 3 ||| rd.setWidth 16] := by
    simp [encodeHalves, place]
  have heffect : effect (.addReg rm rn rd) s =
      { writes := [(low rd, s.stored (low rn) + s.stored (low rm))]
        flags := some (flagsOfSum (s.stored (low rn)) (s.stored (low rm))) } := by
    rw [effect, sumEffect_eq, State.readReg_low, State.readReg_low]
  exact ⟨decodeHalves_of_encodeHalves hw2 rfl hencode, exec_of_effect_eq_write rfl heffect (low_ne_pcIndex rd)⟩

/-- Settles O26: both effects are one write of register 13 and have no flags; the offset is the decoder's own scaling
of imm7. -/
theorem stackPointerAdjustWritesNoFlag : Obligations.StackPointerAdjustWritesNoFlag := by
  unfold Obligations.StackPointerAdjustWritesNoFlag
  intro imm7 hw2 s
  rw [← immFromImm7Words_eq_shiftLeft]
  have hwf : (fitsUnsigned 9 (immFromImm7Words imm7) && isWordMultiple (immFromImm7Words imm7)) = true := by simp
  have hencodeAdd : encodeHalves (.addSp (immFromImm7Words imm7)) = [0xB000#16 ||| imm7.setWidth 16] := by
    simp [encodeHalves, place]
  have hencodeSub : encodeHalves (.subSp (immFromImm7Words imm7)) = [0xB080#16 ||| imm7.setWidth 16] := by
    simp [encodeHalves, place]
  have heffectAdd : effect (.addSp (immFromImm7Words imm7)) s =
      { writes := [(spIndex, s.stored spIndex + immFromImm7Words imm7)] } := by
    rw [effect, addWithCarry_result, State.readReg_sp, Bool.toNat_false, BitVec.add_zero]
  have heffectSub : effect (.subSp (immFromImm7Words imm7)) s =
      { writes := [(spIndex, s.stored spIndex - immFromImm7Words imm7)] } := by
    rw [effect, subtract_result, State.readReg_sp]
  exact ⟨decodeHalves_of_encodeHalves hw2 hwf hencodeAdd, decodeHalves_of_encodeHalves hw2 hwf hencodeSub,
    exec_of_effect_eq_write rfl heffectAdd spIndex_ne_pcIndex,
    exec_of_effect_eq_write rfl heffectSub spIndex_ne_pcIndex⟩

end Sys2Proof.Machine
end

section
/-! CMP (register), MVN and the fourteen operations without execution semantics (spec/43_data_processing.md R195, R200,
R205). -/

namespace Sys2Proof

/-- Every data-processing pattern is decoded by its operation number (R107). -/
theorem decodeHalves_encodeDp (op : BitVec 4) (rm rdn : BitVec 3) (hw2 : Half) :
    decodeHalves (0x4000#16 ||| place 6 op ||| place 3 rm ||| rdn.setWidth 16) hw2 = some (decodeDp op rm rdn) := by
  rw [← place_zero rdn]
  exact decodeHalves_of_decodeShort (decodeShort_encodeDp op rm rdn) hw2

end Sys2Proof

namespace Sys2Proof.Machine

/-- An instruction whose check raises a halt answers that halt (R291). -/
theorem haltsWith_exec_of_haltOf {i : Instr} {s : State} {c : HaltCause} (h : haltOf i s = some c) :
    HaltsWith c s (exec i s) := by
  rw [exec_eq_haltOrApply, h]
  exact haltsWith_raise c s

/-- Of the sixteen operations only `1010` (CMP) and `1111` (MVN) have execution semantics (R195). -/
theorem haltOf_decodeDp {op : BitVec 4} (hcmp : op ≠ 0b1010#4) (hmvn : op ≠ 0b1111#4) (rm rdn : BitVec 3)
    (s : State) : haltOf (decodeDp op rm rdn) s = some .notImplemented := by
  fun_cases decodeDp op rm rdn with
  | case11 h => exact absurd (BitVec.eq_of_toNat_eq h) hcmp
  | case16 =>
    simp only [imp_false] at *
    have hop : op.toNat = 15 := by omega
    exact absurd (BitVec.eq_of_toNat_eq hop) hmvn
  | _ => rfl

/-- Settles O21: the effect is the flags of the subtraction of the stored Rm from the stored Rn alone. -/
theorem cmpRegisterSetsFlagsOnly : Obligations.CmpRegisterSetsFlagsOnly := by
  unfold Obligations.CmpRegisterSetsFlagsOnly
  intro rm rn hw2 s
  have hflags : (effect (.cmpReg rm rn) s).flags =
      some (flagsOfDifference (s.stored (low rn)) (s.stored (low rm))) := by
    rw [effect, State.readReg_low, State.readReg_low, flagsOf_subtract]
  refine ⟨decodeHalves_encodeDp 0b1010#4 rm rn hw2, _, exec_of_haltOf_eq_none rfl, ?_, Effect.result_pc rfl _ s,
    Effect.keepsMemory_result rfl _ s, Effect.keeps_result _ _ s⟩
  rw [Effect.result_flags, hflags, Option.getD_some]

/-- The flags of MVN in the terms of its operand: N is its bit 31 inverted, and Z says that it is all ones. -/
theorem State.setFlagsMvn_not_flags (s : State) (x : Word) :
    (s.setFlagsMvn (~~~x)).flags =
      { n := !x.getLsbD 31, z := decide (x = 0xFFFFFFFF#32), c := false, v := s.flags.v } := by
  have hn : (~~~x).getLsbD 31 = !x.getLsbD 31 := BitVec.getLsbD_not
  have hz : ~~~x = 0#32 ↔ x = 0xFFFFFFFF#32 := BitVec.not_eq_comm
  simp only [State.setFlagsMvn_flags, hn, hz]

/-- Settles O27: the effect is the complement of the stored Rm, with the flags of MVN. -/
theorem mvnComplementsClearsCarryKeepsOverflow : Obligations.MvnComplementsClearsCarryKeepsOverflow := by
  unfold Obligations.MvnComplementsClearsCarryKeepsOverflow
  intro rm rd hw2 s
  have heffect : effect (.mvns rm rd) s =
      { writes := [(low rd, ~~~(s.stored (low rm)))]
        flags := some { n := !(s.stored (low rm)).getLsbD 31, z := decide (s.stored (low rm) = 0xFFFFFFFF#32)
                        c := false, v := s.flags.v } } := by
    rw [effect, State.readReg_low, State.setFlagsMvn_not_flags]
  obtain ⟨t, hexec, hstored, hflags, hpc, hmem, hkeeps⟩ := exec_of_effect_eq_write rfl heffect (low_ne_pcIndex rd)
  rw [Option.getD_some] at hflags
  refine ⟨decodeHalves_encodeDp 0b1111#4 rm rd hw2, t, hexec, hstored, ?_, ?_, ?_, ?_, hpc, hmem, hkeeps⟩ <;>
    rw [hflags]

/-- Settles O28: the only check of each of the fourteen raises `NotImplemented`, whether it is named by its record or
by its operation number. -/
theorem unexecutedDataProcessingHalts : Obligations.UnexecutedDataProcessingHalts := by
  unfold Obligations.UnexecutedDataProcessingHalts
  intro rm rdn s
  refine ⟨fun i hi => haltsWith_exec_of_haltOf ?_,
    fun op hcmp hmvn => haltsWith_exec_of_haltOf (haltOf_decodeDp hcmp hmvn rm rdn s)⟩
  fin_cases hi <;> rfl

end Sys2Proof.Machine
end

section
/-! BL, BX, B cond and B (spec/44_branches.md R220 to R228): the offset of BL from its fields, and what an effect does
whose last write is of register 15. -/

namespace Sys2Proof

/-! ### The offset of BL (R97) -/

theorem toInt_bit (s : BitVec 1) : s.toInt = -(s.toNat : Int) := by
  rcases s.eq_zero_or_eq_one with rfl | rfl <;> rfl

/-- `I = NOT(J XOR S)` says that J and S agree. -/
theorem toNat_not_xor (j s : BitVec 1) : (~~~(j ^^^ s)).toNat = if j = s then 1 else 0 := by
  revert j s
  decide

/-- The bit weights of `S:I1:I2:imm10:imm11:0`. -/
theorem toInt_immFromBl (s j1 j2 : BitVec 1) (imm10 : BitVec 10) (imm11 : BitVec 11) :
    (immFromBl s j1 j2 imm10 imm11).toInt = -16777216 * (s.toNat : Int) + (if j1 = s then 8388608 else 0) +
      (if j2 = s then 4194304 else 0) + 4096 * (imm10.toNat : Int) + 2 * (imm11.toNat : Int) := by
  rw [immFromBl, BitVec.toInt_signExtend_of_le (by decide)]
  simp (disch := decide) only [BitVec.toInt_append, if_neg, toInt_bit, toNat_not_xor]
  split_ifs <;> push_cast <;> omega

theorem decodeHalves_immFromBl (s j1 j2 : BitVec 1) (imm10 : BitVec 10) (imm11 : BitVec 11) :
    decodeHalves (0xF000#16 ||| place 10 s ||| place 0 imm10)
      (0xD000#16 ||| place 13 j1 ||| place 11 j2 ||| place 0 imm11) = some (.bl (immFromBl s j1 j2 imm10 imm11)) := by
  have hwf : (Instr.bl (immFromBl s j1 j2 imm10 imm11)).wf = true := by simp [Instr.wf]
  obtain ⟨hlong, hdecode⟩ := decodeLong_of_encodeHalves hwf (encodeBl_immFromBl s j1 j2 imm10 imm11)
  rw [decodeHalves, if_pos hlong, hdecode]

end Sys2Proof

namespace Sys2Proof.Machine

/-! ### An effect whose last write is of register 15 (R24, R28) -/

theorem branchTarget_eq (s : State) (imm32 : Word) : branchTarget s imm32 = s.pc + 4#32 + imm32 := by
  rw [branchTarget, State.readReg_pc]

theorem State.writeRegs_append (ws ws' : List (BitVec 4 × Word)) (s : State) :
    s.writeRegs (ws ++ ws') = (s.writeRegs ws).writeRegs ws' := by
  induction ws generalizing s with
  | nil => rfl
  | cons w ws ih => exact ih _

/-- What the registers hold after some writes depends on what they held before alone. -/
theorem State.stored_writeRegs_congr {s t : State} (h : ∀ r, s.stored r = t.stored r)
    (ws : List (BitVec 4 × Word)) (r : BitVec 4) : (s.writeRegs ws).stored r = (t.writeRegs ws).stored r := by
  induction ws generalizing s t with
  | nil => exact h r
  | cons w ws ih =>
    refine ih fun r => ?_
    rw [State.stored_writeReg, State.stored_writeReg, h]

/-- The frame of a tick has nothing to say of the PC, so it need not be listed. -/
theorem Keeps.of_append_pcIndex {s t : State} {dests : List (BitVec 4)} (h : Keeps s t (dests ++ [pcIndex])) :
    Keeps s t dests := by
  obtain ⟨hregs, hrest⟩ := h
  refine ⟨fun i hpc hi => hregs i hpc ?_, hrest⟩
  rw [List.mem_append, List.mem_singleton]
  exact not_or.2 ⟨hi, hpc⟩

/-- What an instruction answers whose effect ends in a write of register 15. -/
theorem exec_of_effect_eq_branch {i : Instr} {s : State} {ws : List (BitVec 4 × Word)} {target : Word}
    (hhalt : haltOf i s = none) (heffect : effect i s = { writes := ws ++ [(pcIndex, target)] }) :
    ∃ t, exec i s = .next t ∧ (∀ r, r ≠ pcIndex → t.stored r = (s.writeRegs ws).stored r) ∧
      t.pc = clearBit0 target ∧ t.branchTaken = true ∧ t.flags = s.flags ∧ KeepsMemory s t ∧
      Keeps s t (ws.map Prod.fst) := by
  have hexec := exec_of_haltOf_eq_none hhalt
  rw [heffect] at hexec
  set e : Effect := { writes := ws ++ [(pcIndex, target)] }
  have htaken : writesPc e.writes = true := by simp [e, writesPc]
  have hstored (r : BitVec 4) : (e.result (BitVec.ofNat 32 i.width) s).stored r =
      if r = pcIndex then clearBit0 target else (s.writeRegs ws).stored r := by
    rw [Effect.stored_result (fun _ => htaken), Effect.stored_apply, State.writeRegs_append]
    exact (State.stored_writeReg _ pcIndex r target).trans
      (if_congr Iff.rfl (if_pos rfl) (State.stored_writeRegs_congr (State.stored_clear s false) ws r))
  have hkeeps := Effect.keeps_result e (BitVec.ofNat 32 i.width) s
  rw [List.map_append] at hkeeps
  exact ⟨_, hexec, fun r hr => (hstored r).trans (if_neg hr), hstored pcIndex,
    (Effect.result_branchTaken e _ s).trans htaken, Effect.result_flags e _ s, Effect.keepsMemory_result rfl _ s,
    hkeeps.of_append_pcIndex⟩

/-! ### The four branches -/

/-- Settles O29: the offset is the decoder's own, and the effect writes register 14 and then register 15. -/
theorem branchWithLinkLinksAndBranches : Obligations.BranchWithLinkLinksAndBranches := by
  unfold Obligations.BranchWithLinkLinksAndBranches
  refine ⟨fun sgn j1 j2 imm10 imm11 => ⟨immFromBl sgn j1 j2 imm10 imm11, ?_, toInt_immFromBl sgn j1 j2 imm10 imm11⟩,
    fun imm32 s => ?_⟩
  · rw [← place_zero imm10, ← place_zero imm11]
    exact decodeHalves_immFromBl sgn j1 j2 imm10 imm11
  · have heffect : effect (.bl imm32) s =
        { writes := [(lrIndex, setBit0 (s.pc + 4#32))] ++ [(pcIndex, s.pc + 4#32 + imm32)] } := by
      rw [effect, State.readReg_pc, branchTarget_eq]
      rfl
    obtain ⟨t, hexec, hstored, hrest⟩ := exec_of_effect_eq_branch rfl heffect
    have hlink : t.stored lrIndex = setBit0 (s.pc + 4#32) := by
      rw [hstored lrIndex lrIndex_ne_pcIndex, State.writeRegs, State.writeRegs, State.stored_writeReg]
      rfl
    exact ⟨t, hexec, hlink, hrest⟩

/-- Settles O30: the effect is one write of register 15, of what the register-file read rule gives. -/
theorem branchExchangeIsAPlainBranch : Obligations.BranchExchangeIsAPlainBranch := by
  unfold Obligations.BranchExchangeIsAPlainBranch
  intro rm hw2 s
  have heffect : effect (.bx rm) s =
      { writes := [] ++ [(pcIndex, if rm = 15#4 then s.pc + 4#32 else s.stored rm)] } := by
    rw [effect, State.readReg_eq_ite]
    rfl
  obtain ⟨t, hexec, -, hrest⟩ := exec_of_effect_eq_branch rfl heffect
  exact ⟨decodeHalves_of_encodeHalves hw2 rfl rfl, t, hexec, hrest⟩

/-- Settles O31: the effect is one write of register 15 when the condition passes, and nothing otherwise. -/
theorem conditionalBranchGoesOrAdvances : Obligations.ConditionalBranchGoesOrAdvances := by
  unfold Obligations.ConditionalBranchGoesOrAdvances
  intro cond imm8 hw2 s hcond
  rw [← immFromBranch8_eq_shiftLeft]
  have hwf : (Instr.bCond cond (immFromBranch8 imm8)).wf = true := by simp [Instr.wf, hcond]
  have hencode : encodeHalves (.bCond cond (immFromBranch8 imm8)) =
      [0xD000#16 ||| cond.code.setWidth 16 <<< 8 ||| imm8.setWidth 16] := by
    simp [encodeHalves, place]
  refine ⟨decodeHalves_of_encodeHalves hw2 hwf hencode, ?_⟩
  cases hpass : conditionPassed (some cond) s.flags with
  | true =>
    have heffect : effect (.bCond cond (immFromBranch8 imm8)) s =
        { writes := [] ++ [(pcIndex, s.pc + 4#32 + immFromBranch8 imm8)] } := by
      rw [effect, hpass, branchTarget_eq]
      rfl
    obtain ⟨t, hexec, -, hrest⟩ := exec_of_effect_eq_branch rfl heffect
    exact ⟨t, hexec, hrest⟩
  | false =>
    have hexec := exec_of_haltOf_eq_none (i := .bCond cond (immFromBranch8 imm8)) (s := s) rfl
    have heffect : effect (.bCond cond (immFromBranch8 imm8)) s = {} := by
      rw [effect, hpass]
      rfl
    rw [heffect] at hexec
    exact ⟨_, hexec, Effect.result_pc rfl _ s, Effect.result_branchTaken _ _ s, Effect.result_flags _ _ s,
      Effect.keepsMemory_result rfl _ s, Effect.keeps_result _ _ s⟩

/-- Settles O32: the effect is one write of register 15. -/
theorem unconditionalBranchGoesToItsTarget : Obligations.UnconditionalBranchGoesToItsTarget := by
  unfold Obligations.UnconditionalBranchGoesToItsTarget
  intro imm11 hw2 s
  rw [← immFromBranch11_eq_shiftLeft]
  have hwf : (Instr.b (immFromBranch11 imm11)).wf = true := by simp [Instr.wf]
  have hencode : encodeHalves (.b (immFromBranch11 imm11)) = [0xE000#16 ||| imm11.setWidth 16] := by
    simp [encodeHalves, place]
  have heffect : effect (.b (immFromBranch11 imm11)) s =
      { writes := [] ++ [(pcIndex, s.pc + 4#32 + immFromBranch11 imm11)] } := by
    rw [effect, branchTarget_eq]
    rfl
  obtain ⟨t, hexec, -, hrest⟩ := exec_of_effect_eq_branch rfl heffect
  exact ⟨decodeHalves_of_encodeHalves hw2 hwf hencode, t, hexec, hrest⟩

end Sys2Proof.Machine
end

section
/-! LDR (literal), STR (SP-relative), PUSH, STM and LDM (spec/45_load_store.md R240 to R245, R247): what memory holds
after words that share no byte are stored, and the plan of a multiple store as its word addresses. -/

namespace Sys2Proof.Machine

/-! ### Stored words that share no byte (R65, R247) -/

/-- The four bytes at one address and the four at the other have none in common. -/
def WordsDisjoint (a b : Word) : Prop := a.toNat + 4 ≤ b.toNat ∨ b.toNat + 4 ≤ a.toNat

theorem State.readWord_congr {s t : State} {addr : Word}
    (h : ∀ b, addr.toNat ≤ b → b < addr.toNat + 4 → s.readByte b = t.readByte b) :
    s.readWord addr = t.readWord addr := by
  rw [State.readWord, State.readWord, h _ (by omega) (by omega), h _ (by omega) (by omega),
    h _ (by omega) (by omega), h _ (by omega) (by omega)]

theorem State.readWord_writeWords_of_disjoint {ws : List (Word × Word)} {addr : Word}
    (h : ∀ w ∈ ws, WordsDisjoint addr w.1) (s : State) : (s.writeWords ws).readWord addr = s.readWord addr := by
  refine State.readWord_congr fun b hlo hhi => s.readByte_writeWords_of_outside ws b fun w hw => ?_
  have hdisjoint := h w hw
  unfold WordsDisjoint at hdisjoint
  omega

/-- Each word of a plan whose words share no byte reads back. -/
theorem State.readWord_writeWords_of_mem {ws : List (Word × Word)}
    (h : ws.Pairwise fun u w => WordsDisjoint u.1 w.1) {w : Word × Word} (hw : w ∈ ws) (s : State) :
    (s.writeWords ws).readWord w.1 = w.2 := by
  induction ws generalizing s with
  | nil => cases hw
  | cons u ws ih =>
    obtain ⟨hu, hws⟩ := List.pairwise_cons.1 h
    rw [State.writeWords]
    rcases List.mem_cons.1 hw with rfl | hw
    · rw [State.readWord_writeWords_of_disjoint hu, State.readWord_writeWord]
    · exact ih hws hw _

/-! ### Memory after an effect -/

/-- What memory holds after some stores depends on what it held before alone. -/
theorem State.writeWords_mem_congr {s t : State} (h : s.mem = t.mem) (ws : List (Word × Word)) :
    (s.writeWords ws).mem = (t.writeWords ws).mem := by
  induction ws generalizing s t with
  | nil => exact h
  | cons w ws ih =>
    refine ih ?_
    simp [State.writeWord, h]

theorem Effect.readByte_result (e : Effect) (width : Word) (s : State) (a : Nat) :
    (e.result width s).readByte a = (s.writeWords e.stores).readByte a := by
  have hmem : (e.result width s).mem = (s.writeWords e.stores).mem := by
    rw [Effect.result, State.advance_mem, Effect.apply_mem]
    exact State.writeWords_mem_congr (s := { s with branchTaken := false }) (t := s) rfl e.stores
  exact congrArg (Memory.get · a) hmem

theorem Effect.readWord_result {e : Effect} (h : e.stores.Pairwise fun u w => WordsDisjoint u.1 w.1)
    {addr v : Word} (hw : (addr, v) ∈ e.stores) (width : Word) (s : State) :
    (e.result width s).readWord addr = v := by
  rw [State.readWord_congr fun b _ _ => e.readByte_result width s b]
  exact State.readWord_writeWords_of_mem h hw s

theorem Effect.keepsMemoryOutside_result (e : Effect) (width : Word) (s : State) :
    KeepsMemoryOutside s (e.result width s) (e.stores.map Prod.fst) := by
  intro a ha
  rw [Effect.readByte_result]
  exact s.readByte_writeWords_of_outside e.stores a fun w hw => ha w.1 (List.mem_map_of_mem hw)

/-! ### The words of a multiple store (R242, R243, R247) -/

@[simp] theorem length_wordAddresses (start : Word) (count : Nat) : (wordAddresses start count).length = count := by
  simp [wordAddresses]

@[simp] theorem getElem_wordAddresses (start : Word) (count : Nat) {k : Nat}
    (hk : k < (wordAddresses start count).length) :
    (wordAddresses start count)[k] = start + BitVec.ofNat 32 (4 * k) := by
  simp [wordAddresses]

theorem map_fst_storePlan (s : State) (start : Word) (is : List (BitVec 4)) :
    (storePlan s start is).map Prod.fst = wordAddresses start is.length := by
  refine List.ext_getElem (by simp) fun k _ _ => ?_
  simp [storePlan_eq_map]

theorem mem_storePlan {is : List (BitVec 4)} {k : Nat} {i : BitVec 4} (h : is[k]? = some i) (s : State)
    (start : Word) : (start + BitVec.ofNat 32 (4 * k), s.readReg i) ∈ storePlan s start is := by
  rw [storePlan_eq_map]
  exact List.mem_map_of_mem (List.mk_mem_zipIdx_iff_getElem?.2 h)

/-- No two of at most 16 words share a byte, wherever the block starts and even when it wraps. -/
theorem wordAddresses_pairwise_disjoint (start : Word) {count : Nat} (h : count ≤ 16) :
    (wordAddresses start count).Pairwise WordsDisjoint := by
  rw [wordAddresses, List.pairwise_map]
  refine List.pairwise_lt_range.imp_of_mem fun {j k} _ hk hlt => ?_
  have hk16 := List.mem_range.1 hk
  simp only [WordsDisjoint, BitVec.toNat_add, BitVec.toNat_ofNat]
  omega

theorem storePlan_pairwise_disjoint (s : State) (start : Word) (registers : BitVec 16) :
    (storePlan s start (listed registers)).Pairwise fun u w => WordsDisjoint u.1 w.1 := by
  rw [← List.pairwise_map, map_fst_storePlan]
  exact wordAddresses_pairwise_disjoint start (listCount_le registers)

theorem firstOutOfRange_storePlan (s : State) (start : Word) (is : List (BitVec 4)) :
    firstOutOfRange (storePlan s start is) = (wordAddresses start is.length).find? fun a => !inRange a := by
  rw [← map_fst_storePlan s, List.find?_map]
  rfl

theorem storeHalt_eq_none {start : Word} {registers : BitVec 16}
    (h : ∀ w ∈ wordAddresses start (listCount registers), w.toNat ≤ 4294967292) (s : State) :
    storeHalt s start registers = none := by
  rw [storeHalt, firstOutOfRange_storePlan, Option.map_eq_none_iff, List.find?_eq_none]
  intro w hw
  simp [inRange_of_le (h w hw)]

/-- The halt names the first word out of range. -/
theorem storeHalt_eq_some {start : Word} {registers : BitVec 16} {k : Nat} (hk : k < listCount registers)
    (hout : 4294967292 < (start + BitVec.ofNat 32 (4 * k)).toNat)
    (hin : ∀ j < k, (start + BitVec.ofNat 32 (4 * j)).toNat ≤ 4294967292) (s : State) :
    storeHalt s start registers = some (.boundsViolation (start + BitVec.ofNat 32 (4 * k))) := by
  have hfirst : (wordAddresses start (listCount registers)).find? (fun a => !inRange a) =
      some (start + BitVec.ofNat 32 (4 * k)) := by
    refine List.find?_eq_some_iff_getElem.2 ⟨?_, k, by simpa using hk, getElem_wordAddresses _ _ _, fun j hj => ?_⟩
    · simp [(inRange_eq_false_iff _).2 hout]
    · simp [inRange_of_le (hin j hj)]
  rw [storeHalt, firstOutOfRange_storePlan]
  exact congrArg (Option.map HaltCause.boundsViolation) hfirst

/-- What PUSH and STM answer when no check raises a halt. -/
theorem exec_of_effect_eq_storeEffect {i : Instr} {s : State} {start newBase : Word} {registers : BitVec 16}
    {base : BitVec 4} (hhalt : haltOf i s = none) (heffect : effect i s = storeEffect s start registers base newBase)
    (hbase : base ≠ pcIndex) :
    ∃ t, exec i s = .next t ∧ t.stored base = newBase ∧
      (∀ (k : Nat) (r : BitVec 4), (listed registers)[k]? = some r →
        t.readWord (start + BitVec.ofNat 32 (4 * k)) = s.readReg r) ∧
      KeepsMemoryOutside s t (wordAddresses start (listCount registers)) ∧
      t.flags = s.flags ∧ t.pc = s.pc + BitVec.ofNat 32 i.width ∧ Keeps s t [base] := by
  have hexec := exec_of_haltOf_eq_none hhalt
  rw [heffect] at hexec
  set e := storeEffect s start registers base newBase
  have hwrites := Effect.writes_result (e := e) rfl (BitVec.ofNat 32 i.width) s
  rw [Writes, if_neg hbase] at hwrites
  obtain ⟨hstored, hpc, -⟩ := hwrites
  have hread (k : Nat) (r : BitVec 4) (hr : (listed registers)[k]? = some r) :
      (e.result (BitVec.ofNat 32 i.width) s).readWord (start + BitVec.ofNat 32 (4 * k)) = s.readReg r :=
    Effect.readWord_result (storePlan_pairwise_disjoint s start registers) (mem_storePlan hr s start) _ s
  have haddrs : e.stores.map Prod.fst = wordAddresses start (listCount registers) := map_fst_storePlan s start _
  have hmemory := e.keepsMemoryOutside_result (BitVec.ofNat 32 i.width) s
  rw [haddrs] at hmemory
  exact ⟨_, hexec, hstored, hread, hmemory, Effect.result_flags e _ s, hpc, Effect.keeps_result e _ s⟩

/-! ### The instructions -/

theorem accessHalt_of_inRange {addr : Word} (h : inRange addr = true) : accessHalt addr = none :=
  if_pos h

theorem accessHalt_of_not_inRange {addr : Word} (h : inRange addr = false) :
    accessHalt addr = some (.boundsViolation addr) := by
  rw [accessHalt, h]
  rfl

@[simp] theorem toNat_low (i : BitVec 3) : (low i).toNat = i.toNat := by
  exact BitVec.toNat_setWidth_of_le (by decide)

/-- Settles O33: the address is a multiple of 4, so its check raises nothing, and the effect is one write of Rt. -/
theorem literalLoadReadsTheAlignedWord : Obligations.LiteralLoadReadsTheAlignedWord := by
  unfold Obligations.LiteralLoadReadsTheAlignedWord
  intro rt imm8 hw2 s
  rw [← immFromImm8Words_eq_shiftLeft]
  have hwf : (Instr.ldrLit rt (immFromImm8Words imm8)).wf = true := by simp [Instr.wf]
  have hencode : encodeHalves (.ldrLit rt (immFromImm8Words imm8)) =
      [0x4800#16 ||| rt.setWidth 16 <<< 8 ||| imm8.setWidth 16] := by
    simp [encodeHalves, place]
  have haddress : literalAddress s (immFromImm8Words imm8) =
      ((s.pc + 4#32) &&& 0xFFFFFFFC#32) + immFromImm8Words imm8 := by
    rw [literalAddress, State.readReg_pc, align4]
  have hmultiple : (immFromImm8Words imm8).setWidth 2 = 0#2 := eq_of_beq (isWordMultiple_immFromImm8Words imm8)
  have hhalt : haltOf (.ldrLit rt (immFromImm8Words imm8)) s = none :=
    accessHalt_of_inRange (literalAddress_inRange s _ hmultiple)
  exact ⟨decodeHalves_of_encodeHalves hw2 hwf hencode, haddress,
    exec_of_effect_eq_write hhalt rfl (low_ne_pcIndex rt)⟩

/-- Settles O34: the effect is one stored word; the check of its address is the only one. -/
theorem stackStoreWritesOneWordOrHalts : Obligations.StackStoreWritesOneWordOrHalts := by
  unfold Obligations.StackStoreWritesOneWordOrHalts
  intro rt imm8 hw2 s
  rw [← immFromImm8Words_eq_shiftLeft]
  have hwf : (Instr.strSp rt (immFromImm8Words imm8)).wf = true := by simp [Instr.wf]
  have hencode : encodeHalves (.strSp rt (immFromImm8Words imm8)) =
      [0x9000#16 ||| rt.setWidth 16 <<< 8 ||| imm8.setWidth 16] := by
    simp [encodeHalves, place]
  have haddress : stackAddress s (immFromImm8Words imm8) = s.stored 13#4 + immFromImm8Words imm8 := by
    rw [stackAddress, State.readReg_sp]
    rfl
  have heffect : effect (.strSp rt (immFromImm8Words imm8)) s =
      { stores := [(stackAddress s (immFromImm8Words imm8), s.stored (low rt))] } := by
    rw [effect, State.readReg_low]
  refine ⟨decodeHalves_of_encodeHalves hw2 hwf hencode, haddress, fun hin => ?_, fun hout => ?_⟩
  · have hexec := exec_of_haltOf_eq_none (i := .strSp rt (immFromImm8Words imm8))
      (accessHalt_of_inRange (inRange_of_le hin))
    rw [heffect] at hexec
    exact ⟨_, hexec, Effect.readWord_result (List.pairwise_singleton _ _) (List.mem_singleton_self _) _ s,
      Effect.keepsMemoryOutside_result _ _ s, Effect.result_flags _ _ s, Effect.result_pc rfl _ s,
      Effect.keeps_result _ _ s⟩
  · exact haltsWith_exec_of_haltOf (accessHalt_of_not_inRange ((inRange_eq_false_iff _).2 hout))

/-- Settles O35: a multiple store from the lowest address of the block, which register 13 takes. -/
theorem pushStoresItsBlockOrHalts : Obligations.PushStoresItsBlockOrHalts := by
  unfold Obligations.PushStoresItsBlockOrHalts
  refine ⟨fun m list hw2 => ?_, fun registers s => ⟨?_, fun hin => ?_, fun k hk hout hin => ?_⟩⟩
  · have hencode : encodeHalves (.push (pushRegisters m list)) =
        [0xB400#16 ||| m.setWidth 16 <<< 8 ||| list.setWidth 16] := by
      simp [encodeHalves, place]
    exact decodeHalves_of_encodeHalves hw2 (listWithin_pushRegisters m list) hencode
  · rw [pushStart, State.readReg_sp, listBytes]
    rfl
  · exact exec_of_effect_eq_storeEffect (storeHalt_eq_none hin s) rfl spIndex_ne_pcIndex
  · exact haltsWith_exec_of_haltOf (storeHalt_eq_some hk hout hin s)

/-- The checks of STM past that of the base (R243). -/
theorem haltOf_stm_of_notMem {rn : BitVec 3} {registers : BitVec 16} (h : registers.getLsbD rn.toNat = false)
    (s : State) : haltOf (.stm rn registers) s = storeHalt s (s.stored (low rn)) registers := by
  rw [haltOf, toNat_low, h, State.readReg_low]
  rfl

/-- Settles O36: the base in the list is the first check; past it, a multiple store from the base, with write-back. -/
theorem storeMultipleStoresItsWordsOrHalts : Obligations.StoreMultipleStoresItsWordsOrHalts := by
  unfold Obligations.StoreMultipleStoresItsWordsOrHalts
  refine ⟨fun rn list hw2 => ?_, fun rn registers s =>
    ⟨fun hlisted => ?_, fun hbase hin => ?_, fun k hbase hk hout hin => ?_⟩⟩
  · have hencode : encodeHalves (.stm rn (lowRegisters list)) =
        [0xC000#16 ||| rn.setWidth 16 <<< 8 ||| list.setWidth 16] := by
      simp [encodeHalves, place]
    exact decodeHalves_of_encodeHalves hw2 (listWithin_lowRegisters list) hencode
  · have hhalt : haltOf (.stm rn registers) s = some .deprecatedOperand := by
      rw [haltOf, toNat_low, if_pos hlisted]
    exact haltsWith_exec_of_haltOf hhalt
  · have heffect : effect (.stm rn registers) s = storeEffect s (s.stored (low rn)) registers (low rn)
        (s.stored (low rn) + BitVec.ofNat 32 (4 * listCount registers)) := by
      rw [effect, State.readReg_low, listBytes]
    exact exec_of_effect_eq_storeEffect ((haltOf_stm_of_notMem hbase s).trans (storeHalt_eq_none hin s)) heffect
      (low_ne_pcIndex rn)
  · exact haltsWith_exec_of_haltOf ((haltOf_stm_of_notMem hbase s).trans (storeHalt_eq_some hk hout hin s))

/-- Settles O37: the only check of LDM raises `NotImplemented`. -/
theorem loadMultipleHalts : Obligations.LoadMultipleHalts := by
  unfold Obligations.LoadMultipleHalts
  intro rn list hw2 s
  have hencode : encodeHalves (.ldm rn (lowRegisters list)) =
      [0xC800#16 ||| rn.setWidth 16 <<< 8 ||| list.setWidth 16] := by
    simp [encodeHalves, place]
  exact ⟨decodeHalves_of_encodeHalves hw2 (listWithin_lowRegisters list) hencode, haltsWith_exec_of_haltOf rfl⟩

end Sys2Proof.Machine
end

section
/-! MRS, MSR and BKPT (spec/46_system.md R260 to R262), with the special-register numbers of spec/10_state.md R35. -/

namespace Sys2Proof

/-- A well-formed record is decoded from the two halfwords that encode it (R122). -/
theorem decodeHalves_of_encodeHalves_pair {i : Instr} {hw1 hw2 : Half} (hi : i.wf = true)
    (he : encodeHalves i = [hw1, hw2]) : decodeHalves hw1 hw2 = some i := by
  obtain ⟨hlong, hdecode⟩ := decodeLong_of_encodeHalves hi he
  rw [decodeHalves, if_pos hlong, hdecode]

/-- The pattern of MRS decodes to the record of its fields (R117). -/
theorem decodeHalves_mrs (rd : BitVec 4) (r : SpecialReg) :
    decodeHalves 0xF3EF#16 (0x8000#16 ||| rd.setWidth 16 <<< 8 ||| r.sysm.setWidth 16) = some (.mrs rd r) := by
  have hencode : encodeHalves (.mrs rd r) =
      [0xF3EF#16, 0x8000#16 ||| rd.setWidth 16 <<< 8 ||| r.sysm.setWidth 16] := by
    simp [encodeHalves, place]
  exact decodeHalves_of_encodeHalves_pair rfl hencode

/-- The pattern of MSR decodes to the record of its fields (R116). -/
theorem decodeHalves_msr (rn : BitVec 4) (r : SpecialReg) :
    decodeHalves (0xF380#16 ||| rn.setWidth 16) (0x8800#16 ||| r.sysm.setWidth 16) = some (.msr rn r) := by
  have hencode : encodeHalves (.msr rn r) = [0xF380#16 ||| rn.setWidth 16, 0x8800#16 ||| r.sysm.setWidth 16] := by
    simp [encodeHalves, place]
  exact decodeHalves_of_encodeHalves_pair rfl hencode

/-- The table of R35: each SYSm number with its identifier. -/
def sysmTable : List (BitVec 8 × SpecialReg) :=
  [(0#8, .apsr), (3#8, .xpsr), (5#8, .ipsr), (6#8, .epsr), (8#8, .msp), (9#8, .psp), (16#8, .primask),
    (20#8, .control)]

theorem sysm_of_mem_sysmTable : ∀ p ∈ sysmTable, p.2.sysm = p.1 := by decide

end Sys2Proof

namespace Sys2Proof.Machine

/-- Settles O38: the effect is one write of Rd, by the register-file write rule, of the special read value. -/
theorem mrsWritesTheSpecialReadValue : Obligations.MrsWritesTheSpecialReadValue := by
  unfold Obligations.MrsWritesTheSpecialReadValue
  refine ⟨fun rd p hp => ?_, fun rd r s => ⟨decodeHalves_mrs rd r, _, exec_of_haltOf_eq_none rfl,
    Effect.writes_result rfl _ s, Effect.result_flags _ _ s, Effect.keepsMemory_result rfl _ s,
    Effect.keeps_result _ _ s⟩⟩
  have hnumber : p.2.sysm = p.1 := sysm_of_mem_sysmTable p hp
  rw [← hnumber]
  exact ⟨rfl, decodeHalves_mrs rd p.2⟩

/-- Settles O39: the only check of MSR raises `NotImplemented`. -/
theorem msrHalts : Obligations.MsrHalts := by
  unfold Obligations.MsrHalts
  refine ⟨fun rn p hp => ?_, fun rn r s => ⟨decodeHalves_msr rn r, haltsWith_exec_of_haltOf rfl⟩⟩
  have hnumber : p.2.sysm = p.1 := sysm_of_mem_sysmTable p hp
  rw [← hnumber]
  exact decodeHalves_msr rn p.2

/-- Settles O40: the only check of BKPT raises `PROGRAM_END`. -/
theorem breakpointEndsTheProgram : Obligations.BreakpointEndsTheProgram := by
  unfold Obligations.BreakpointEndsTheProgram
  intro imm8 hw2 s
  have hencode : encodeHalves (.bkpt imm8) = [0xBE00#16 ||| imm8.setWidth 16] := by
    simp [encodeHalves, place]
  exact ⟨decodeHalves_of_encodeHalves hw2 rfl hencode, haltsWith_exec_of_haltOf rfl⟩

end Sys2Proof.Machine
end

section
/-! Halts: the order of the checks of a tick, the causes each record raises, and what a halt leaves unchanged
(spec/60_exceptions.md R288 to R292). -/

namespace Sys2Proof.Machine

/-! ### The order of the checks (R288) -/

/-- A fetch in range that finds no record fails with `IllegalEncoding`. -/
theorem State.decodeAt_of_decodeHalves_eq_none {s : State} {addr : Word} (ha : inRange addr = true)
    (h : decodeHalves (s.readHalf addr.toNat) (s.readHalf (addr.toNat + 2)) = none) :
    s.decodeAt addr = .error .illegalEncoding := by
  simp [State.decodeAt, ha, h]

/-- A tick whose fetch finds a record halts as the checks of that record say. -/
theorem haltsWith_step_of_haltOf {s : State} {i : Instr} {c : HaltCause} (hr : s.run = .running)
    (hf : s.fetch = .ok i) (h : haltOf i s = some c) : HaltsWith c s (step s) :=
  step_of_fetch_ok hr hf ▸ haltsWith_exec_of_haltOf h

/-- Dispatch is the only check of a record without a handler (R120, R283). -/
theorem haltOf_of_lacksHandler {i : Instr} (h : lacksHandler i = true) (s : State) :
    haltOf i s = some .notImplemented := by
  cases i with
  | ands | eors | lsls | lsrs | asrs | adcs | sbcs | rors | tst | rsbs | cmn | orrs | muls | bics | ldm | msr => rfl
  | _ => cases h

/-- STM with its base in its list: the first of its checks (R243, R284). -/
theorem haltOf_stm_of_mem {rn : BitVec 3} {registers : BitVec 16} (h : registers.getLsbD rn.toNat = true)
    (s : State) : haltOf (.stm rn registers) s = some .deprecatedOperand := by
  rw [haltOf, toNat_low, if_pos h]

/-- A multiple store with a word out of range records such a word. -/
theorem exists_storeHalt_eq_some {start : Word} {registers : BitVec 16}
    (h : ∃ w ∈ wordAddresses start (listCount registers), 4294967292 < w.toNat) (s : State) :
    ∃ w ∈ wordAddresses start (listCount registers), 4294967292 < w.toNat ∧
      storeHalt s start registers = some (.boundsViolation w) := by
  obtain ⟨w, hw, hout⟩ := h
  have hsome : ((wordAddresses start (listCount registers)).find? fun a => !inRange a).isSome = true :=
    List.find?_isSome.2 ⟨w, hw, by rw [(inRange_eq_false_iff w).2 hout]; rfl⟩
  obtain ⟨a, ha⟩ := Option.isSome_iff_exists.1 hsome
  refine ⟨a, List.mem_of_find?_eq_some ha, (inRange_eq_false_iff a).1 (by simpa using List.find?_some ha), ?_⟩
  rw [storeHalt, firstOutOfRange_storePlan]
  exact congrArg (Option.map HaltCause.boundsViolation) ha

/-- Settles O43: the fetch answers the first two checks; past it, each clause is the one halt that `haltOf` gives the
record. -/
theorem checksComeInTheFixedOrder : Obligations.ChecksComeInTheFixedOrder := by
  unfold Obligations.ChecksComeInTheFixedOrder
  intro s hr
  refine ⟨fun hpc => ?fetch, fun hpc => ⟨fun hd => ?pattern, fun i hd => ?record⟩⟩
  case fetch =>
    exact haltsWith_step_of_fetch_error hr (s.decodeAt_of_not_inRange ((inRange_eq_false_iff _).2 hpc))
  case pattern =>
    exact haltsWith_step_of_fetch_error hr (State.decodeAt_of_decodeHalves_eq_none (inRange_of_le hpc) hd)
  case record =>
    have halts {c : HaltCause} (h : haltOf i s = some c) : HaltsWith c s (step s) :=
      haltsWith_step_of_haltOf hr (State.decodeAt_of_decodeHalves (inRange_of_le hpc) hd) h
    refine ⟨?bkpt, fun h => halts (haltOf_of_lacksHandler h s), ?stmBase, ?stmWords, ?push, ?strSp⟩
    case bkpt =>
      rintro imm8 rfl
      exact halts rfl
    case stmBase =>
      rintro rn registers rfl hbase
      exact halts (haltOf_stm_of_mem hbase s)
    case stmWords =>
      rintro rn registers rfl hbase hout
      obtain ⟨w, hw, hlt, hhalt⟩ := exists_storeHalt_eq_some hout s
      exact ⟨w, hw, hlt, halts ((haltOf_stm_of_notMem hbase s).trans hhalt)⟩
    case push =>
      rintro registers rfl hout
      obtain ⟨w, hw, hlt, hhalt⟩ := exists_storeHalt_eq_some hout s
      exact ⟨w, hw, hlt, halts hhalt⟩
    case strSp =>
      rintro rt imm32 rfl hout
      exact halts (accessHalt_of_not_inRange ((inRange_eq_false_iff _).2 hout))

/-! ### The causes of each record (R289) -/

theorem State.run_ne_running_of_halted {s : State} {c : HaltCause} (h : s.run = .halted c) : s.run ≠ .running := by
  simp [h]

/-- A record run in a running state halts the block only by a check of its own. -/
theorem haltOf_of_exec_halted {i : Instr} {s t : State} {c : HaltCause} (hr : s.run = .running)
    (h : exec i s = .next t) (ht : t.run = .halted c) : haltOf i s = some c ∧ raise c s = .next t := by
  rw [exec_eq_haltOrApply] at h
  cases hc : haltOf i s with
  | some c' =>
    rw [hc] at h
    obtain ⟨-, -, -, -, -, hrun⟩ := raise_frame h
    obtain rfl : c' = c := RunState.halted.inj (hrun.symm.trans ht)
    exact ⟨rfl, h⟩
  | none =>
    rw [hc] at h
    cases h
    obtain ⟨-, -, hrun⟩ := Effect.keeps_result (effect i s) (BitVec.ofNat 32 i.width) s
    exact absurd (hrun.trans hr) (State.run_ne_running_of_halted ht)

theorem isBounds_of_accessHalt {addr : Word} {c : HaltCause} (h : accessHalt addr = some c) : c.isBounds = true := by
  unfold accessHalt at h
  split at h
  · cases h
  · cases h
    rfl

theorem isBounds_of_storeHalt {s : State} {start : Word} {registers : BitVec 16} {c : HaltCause}
    (h : storeHalt s start registers = some c) : c.isBounds = true := by
  obtain ⟨a, -, rfl⟩ := Option.map_eq_some_iff.1 h
  rfl

/-- The literal of a well-formed LDR is always in range: its offset is a multiple of 4 (R97, R245). -/
theorem haltOf_ldrLit_of_wf {rt : BitVec 3} {imm32 : Word} (h : (Instr.ldrLit rt imm32).wf = true) (s : State) :
    haltOf (.ldrLit rt imm32) s = none := by
  obtain ⟨-, hmultiple⟩ := Bool.and_eq_true_iff.1 h
  exact accessHalt_of_inRange (literalAddress_inRange s imm32 (eq_of_beq hmultiple))

/-- The table of R289, record by record. -/
theorem mayRaise_of_haltOf {i : Instr} {s : State} {c : HaltCause} (hi : i.wf = true) (h : haltOf i s = some c) :
    mayRaise c i = true := by
  cases i with
  | strSp => exact isBounds_of_accessHalt h
  | push => exact isBounds_of_storeHalt h
  | stm rn registers =>
    rw [haltOf] at h
    split at h
    · cases h
      rfl
    · rw [mayRaise, isBounds_of_storeHalt h, Bool.true_or]
  | ldrLit =>
    rw [haltOf_ldrLit_of_wf hi] at h
    cases h
  | bkpt | ands | eors | lsls | lsrs | asrs | adcs | sbcs | rors | tst | rsbs | cmn | orrs | muls | bics | ldm | msr =>
    cases h
    rfl
  | _ => cases h

/-- Settles O44: a record halts only by a check of its own, and each check raises a cause of the table. -/
theorem onlyTheListedCausesAreRaised : Obligations.OnlyTheListedCausesAreRaised := by
  unfold Obligations.OnlyTheListedCausesAreRaised
  intro i s t c hi hr h ht
  obtain ⟨hhalt, -⟩ := haltOf_of_exec_halted hr h ht
  exact mayRaise_of_haltOf hi hhalt

/-! ### Halts are precise, and final (R290 to R292) -/

/-- A tick that halts a running block raises the cause, whether the fetch failed or a check of the record did. -/
theorem raise_of_step_halted {s t : State} {c : HaltCause} (hr : s.run = .running) (h : step s = .next t)
    (ht : t.run = .halted c) : raise c s = .next t := by
  rcases step_next h with rfl | ⟨c', hc'⟩ | ⟨i, hi⟩
  · exact absurd hr (State.run_ne_running_of_halted ht)
  · obtain ⟨-, -, -, -, -, hrun⟩ := raise_frame hc'
    obtain rfl : c' = c := RunState.halted.inj (hrun.symm.trans ht)
    exact hc'
  · exact (haltOf_of_exec_halted hr hi ht).2

/-- Settles O46: every halt of a tick is a `raise`, which keeps all but the run state and `branch_taken`. -/
theorem haltsArePrecise : Obligations.HaltsArePrecise := by
  unfold Obligations.HaltsArePrecise
  intro s t c hr h ht
  obtain ⟨hregs, hflags, hspecial, hmem, htaken, -⟩ := raise_frame (raise_of_step_halted hr h ht)
  exact ⟨hregs, hflags, hspecial, hmem, htaken⟩

theorem step_of_goodEnd {s : State} (h : s.goodEnd) : step s = .next s :=
  step_of_halted h

theorem step_of_fatal {s : State} {c : HaltCause} (h : s.run = .halted c) (hc : c ≠ .programEnd) :
    step s = .fault (.halted c) := by
  rw [step_of_halted h]
  rcases haltedStep_cases c s with ⟨hend, -⟩ | ⟨-, hfault⟩
  · exact absurd hend hc
  · exact hfault

/-- Settles O47: the step of a halted block by its cause, and the run loop, which makes no tick there. -/
theorem haltedBlockMakesNoTick : Obligations.HaltedBlockMakesNoTick := by
  unfold Obligations.HaltedBlockMakesNoTick
  intro s c h
  refine ⟨?_, step_of_fatal h, runBudget_of_halted (State.run_ne_running_of_halted h)⟩
  rintro rfl
  exact step_of_goodEnd h

end Sys2Proof.Machine
end

section
/-! The reset sequence (spec/70_reset_and_hazards.md R310 to R313; spec/10_state.md R50), and how a run ends (R318). -/

namespace Sys2Proof.Machine

/-! ### The boot copy (R75, R312) -/

/-- Bytes stored at rising addresses change no address outside theirs. -/
theorem Memory.get_setBytes_of_outside (bs : List Byte) (m : Memory) {a b : Nat} (h : b < a ∨ a + bs.length ≤ b) :
    (m.setBytes a bs).get b = m.get b := by
  induction bs generalizing m a with
  | nil => rfl
  | cons v bs ih =>
    rw [List.length_cons] at h
    rw [Memory.setBytes, ih _ (by omega), Memory.get_set, if_neg (by omega)]

/-- Each byte stands at its address. -/
theorem Memory.get_setBytes_of_getElem? {bs : List Byte} {k : Nat} {v : Byte} (h : bs[k]? = some v) (m : Memory)
    (a : Nat) : (m.setBytes a bs).get (a + k) = v := by
  induction bs generalizing m a k with
  | nil => cases h
  | cons w bs ih =>
    rw [Memory.setBytes]
    cases k with
    | zero =>
      cases h
      rw [Memory.get_setBytes_of_outside _ _ (by omega), Memory.get_set, if_pos (Nat.add_zero a)]
    | succ k => simpa only [Nat.add_right_comm a 1 k, Nat.add_assoc] using ih h (m.set a w) (a + 1)

/-! ### The state after the reset sequence -/

theorem bootInRange_iff (b : BootPort) : bootInRange b = true ↔ b.loadAddr.toNat + b.code.length ≤ 4294967296 :=
  decide_eq_true_iff

/-- The reset sequence whose image fits: power-on values, the image, register 13 and register 15 (R310). -/
theorem boot_of_inRange (p : OpenParams) {b : BootPort} (h : bootInRange b = true) :
    boot p b = { (({ powerOn p with mem := p.memInit.setBytes b.loadAddr.toNat b.code } : State).writeReg spIndex
      b.initSp).writeReg pcIndex b.entryAddr with branchTaken := false } := by
  rw [boot, if_pos h]
  rfl

/-- An image out of range ends the reset sequence after the power-on values (R312). -/
theorem boot_of_not_inRange (p : OpenParams) {b : BootPort} (h : bootInRange b = false) :
    boot p b = { powerOn p with run := .halted (.boundsViolation b.loadAddr) } := by
  rw [boot, h]
  rfl

section
variable (p : OpenParams) {b : BootPort} (h : bootInRange b = true)
include h

theorem boot_run : (boot p b).run = .running := by
  rw [boot_of_inRange p h]
  simp only [State.writeReg_run]
  rfl

theorem boot_flags : (boot p b).flags = { n := false, z := false, c := false, v := false } := by
  rw [boot_of_inRange p h]
  simp only [State.writeReg_flags]
  rfl

theorem boot_branchTaken : (boot p b).branchTaken = false := by
  rw [boot_of_inRange p h]

theorem boot_mem : (boot p b).mem = p.memInit.setBytes b.loadAddr.toNat b.code := by
  rw [boot_of_inRange p h]
  simp only [State.writeReg_mem]

/-- Register 15 through the register-file write rule, register 13 as given, the others at `RESET_R`. -/
theorem boot_stored (i : BitVec 4) : (boot p b).stored i =
    if i = pcIndex then clearBit0 b.entryAddr else if i = spIndex then b.initSp else p.resetR[i.toNat]'i.isLt := by
  rw [boot_of_inRange p h, State.stored_clear, State.stored_writeReg, State.stored_writeReg, if_pos rfl,
    if_neg spIndex_ne_pcIndex]
  rfl

/-- Each byte of the image stands at its address. -/
theorem boot_readByte_of_getElem? {k : Nat} {v : Byte} (hk : b.code[k]? = some v) :
    (boot p b).readByte (b.loadAddr.toNat + k) = v := by
  rw [State.readByte, boot_mem p h]
  exact Memory.get_setBytes_of_getElem? hk _ _

/-- Every byte outside the image is `MEM_INIT`. -/
theorem boot_readByte_of_outside {a : Nat} (ha : a < b.loadAddr.toNat ∨ b.loadAddr.toNat + b.code.length ≤ a) :
    (boot p b).readByte a = p.memInit.get a := by
  rw [State.readByte, boot_mem p h, Memory.get_setBytes_of_outside _ _ ha]

end

/-- Settles O56: each row of R50 is what the reset sequence leaves in one field. -/
theorem resetSequenceLoadsTheBootPort : Obligations.ResetSequenceLoadsTheBootPort := by
  unfold Obligations.ResetSequenceLoadsTheBootPort
  intro p b hfits
  have h := (bootInRange_iff b).2 hfits
  have hother (i : BitVec 4) (hsp : i ≠ spIndex) (hpc : i ≠ pcIndex) :
      (boot p b).stored i = p.resetR[i.toNat]'i.isLt := by
    rw [boot_stored p h, if_neg hpc, if_neg hsp]
  obtain ⟨hpsr, hpsp, hprimask, hcontrol⟩ := slot_of_special_eq_powerOn (boot_special p b)
  exact ⟨boot_run p h, boot_branchTaken p h, boot_flags p h, boot_stored p h spIndex, boot_stored p h pcIndex, hother,
    hpsr, hpsp, hprimask, hcontrol, fun _ _ => boot_readByte_of_getElem? p h, fun _ => boot_readByte_of_outside p h⟩

/-- An empty image is in range for every `LOAD_ADDR` (R312). -/
theorem bootInRange_of_code_eq_nil {b : BootPort} (h : b.code = []) : bootInRange b = true := by
  rw [bootInRange_iff, h]
  exact b.loadAddr.isLt.le

/-- Settles O57: out of range the reset stops at the power-on values in a halted state; in range the boot copy puts
each byte at its address, and the copy of no bytes is no change. -/
theorem imageOutOfRangeHaltsTheReset : Obligations.ImageOutOfRangeHaltsTheReset := by
  unfold Obligations.ImageOutOfRangeHaltsTheReset
  intro p b
  refine ⟨fun hout => ?overlong, fun hfits => ?fits, fun hempty => ?empty⟩
  case overlong =>
    have h : bootInRange b = false := decide_eq_false (Nat.not_le.2 hout)
    have hrun : (boot p b).run = .halted (.boundsViolation b.loadAddr) := by rw [boot_of_not_inRange p h]
    refine ⟨hrun, ?_, ?_, runBudget_of_halted (State.run_ne_running_of_halted hrun)⟩
    · rw [boot_of_not_inRange p h]
      rfl
    · rw [boot_of_not_inRange p h]
      rfl
  case fits =>
    have h := (bootInRange_iff b).2 hfits
    exact ⟨boot_run p h, fun _ _ => boot_readByte_of_getElem? p h⟩
  case empty =>
    have h := bootInRange_of_code_eq_nil hempty
    refine ⟨boot_run p h, ?_⟩
    rw [boot_mem p h, hempty]
    rfl

/-! ### The ends of a run (R14, R318) -/

theorem State.running_or_goodEnd_or_failed (s : State) : s.run = .running ∨ s.goodEnd ∨ s.failed := by
  cases hr : s.run with
  | running => exact .inl rfl
  | halted c =>
    by_cases hc : c = .programEnd
    · exact .inr (.inl (hr.trans (congrArg _ hc)))
    · exact .inr (.inr ⟨c, hr, hc⟩)

theorem State.not_running_of_goodEnd {s : State} (h : s.goodEnd) : s.run ≠ .running :=
  State.run_ne_running_of_halted h

theorem State.not_running_of_failed {s : State} (h : s.failed) : s.run ≠ .running := by
  obtain ⟨c, hc, -⟩ := h
  exact State.run_ne_running_of_halted hc

theorem State.not_failed_of_goodEnd {s : State} (h : s.goodEnd) : ¬ s.failed := by
  rintro ⟨c, hc, hfatal⟩
  exact hfatal (RunState.halted.inj (hc.symm.trans h))

/-- One step of the host's run, on any machine. -/
theorem coreRun_succ_of_next {M : Host.Core} {s t : M.State} (h : M.step s = .next t) (k : Nat) :
    M.run (k + 1) s = M.run k t := by
  rw [Host.Core.run, h]

/-- A fault ends the host's run, on any machine. -/
theorem coreRun_succ_of_fault {M : Host.Core} {s : M.State} {r : M.Fault} (h : M.step s = .fault r) (k : Nat) :
    M.run (k + 1) s = .fault r := by
  rw [Host.Core.run, h]

/-- The host's run and the run loop agree until a failure: both make the ticks of a running block, and after
`PROGRAM_END` both stay (log entry 6). -/
theorem coreRun_of_not_failed {k : Nat} {s : State} (h : ¬ (runBudget k s).failed) :
    Host.Core.run core k s = .next (runBudget k s) := by
  induction k generalizing s with
  | zero => rfl
  | succ k ih =>
    rcases s.running_or_goodEnd_or_failed with hr | hend | hfail
    · obtain ⟨t, ht⟩ := exists_step_eq_next hr
      rw [runBudget_succ_of_next hr ht] at h ⊢
      rw [coreRun_succ_of_next (M := core) ht, ih h]
    · have hstay := runBudget_of_halted (State.not_running_of_goodEnd hend)
      rw [hstay] at h ⊢
      rw [coreRun_succ_of_next (M := core) (step_of_goodEnd hend), ih (by rwa [hstay]), hstay]
    · rw [runBudget_of_halted (State.not_running_of_failed hfail)] at h
      exact absurd hfail h

/-- The host's run of a failed run is a fault one step later (log entry 6). -/
theorem coreRun_succ_of_fatal {k : Nat} {s : State} {c : HaltCause} (h : (runBudget k s).run = .halted c)
    (hc : c ≠ .programEnd) : Host.Core.run core (k + 1) s = .fault (.halted c) := by
  induction k generalizing s with
  | zero => exact coreRun_succ_of_fault (M := core) (step_of_fatal h hc) 0
  | succ k ih =>
    by_cases hr : s.run = .running
    · obtain ⟨t, ht⟩ := exists_step_eq_next hr
      rw [runBudget_succ_of_next hr ht] at h
      rw [coreRun_succ_of_next (M := core) ht, ih h]
    · rw [runBudget_of_halted hr] at h
      exact coreRun_succ_of_fault (M := core) (step_of_fatal h hc) (k + 1)

/-- Settles O59: the run state is running, the good end or a failure, in no two of these; the host's run follows the
run loop. -/
theorem runEndsInExactlyOneOfThreeWays : Obligations.RunEndsInExactlyOneOfThreeWays := by
  unfold Obligations.RunEndsInExactlyOneOfThreeWays
  intro k s _
  exact ⟨State.running_or_goodEnd_or_failed _,
    fun ⟨hr, hend⟩ => State.not_running_of_goodEnd hend hr,
    fun ⟨hr, hfail⟩ => State.not_running_of_failed hfail hr,
    fun ⟨hend, hfail⟩ => State.not_failed_of_goodEnd hend hfail,
    fun hsafe => coreRun_of_not_failed ((safeRun_some k s).1 hsafe),
    fun _ hc h => coreRun_succ_of_fatal h hc⟩

end Sys2Proof.Machine
end
